-- ==== Sys2Proof/Word.lean ====
section
/-! DEFINITION. The word types of LSBC: the widths that 00_scope.md R7 fixes, and the four opcodes of R71.
Everything is unsigned (R8); bit 0 is the least-significant bit (R9). -/

namespace Sys2Proof

/-- A cell, a payload byte, CUR and MASK: 8 bits unsigned (CELL_W, R7). -/
abbrev Byte := BitVec 8

/-- The operands `height` and `row_bytes`, and the two position registers (W_H and W_R, R7). -/
abbrev Word := BitVec 32

/-- A product of two operands, a cell address, a capacity (W_P, R7). -/
abbrev Wide := BitVec 64

/-- A command word CMD66 (CMD_W, R7; layout R70). -/
abbrev CommandWord := BitVec 66

/-- A stream token (TOK_W, R7; layout R75 and R76). -/
abbrev Token := BitVec 9

/-- A response word (RSP_W, R7; layout R77). -/
abbrev Response := BitVec 65

/-- The four values of the 2-bit opcode, by name (R71). The register OP holds one of them (R23). -/
inductive Opcode where
  | nop
  | cap
  | enc
  | dec
deriving DecidableEq, Repr

/-- The number R71 gives each opcode. -/
def Opcode.bits : Opcode → BitVec 2
  | .nop => 0b00#2
  | .cap => 0b01#2
  | .enc => 0b10#2
  | .dec => 0b11#2

end Sys2Proof
end

