-- ==== Sys2Proof/Syntax.lean ====
section
/-! DEFINITION. The syntax of LSBC-1: one constructor per row of spec/opcode_table.json (00_scope.md R2, 30_encoding.md R71). -/

namespace Sys2Proof

/-- A command. Both fields of CMD66 are kept for every command, so that no bit of a word is lost; NOP ignores them (R73). -/
inductive Instr where
  /-- NOP: no effect; `h` and `r` are ignored (R150). -/
  | nop (h r : Word)
  /-- CAP h, r: the capacity calculator (R90). -/
  | cap (h r : Word)
  /-- ENC h, r: the LSB bit-encoder (R100). -/
  | enc (h r : Word)
  /-- DEC h, r: the LSB bit-decoder (R130). -/
  | dec (h r : Word)
deriving DecidableEq, Repr

end Sys2Proof
end

