-- ==== Sys2Proof/WellFormed.lean ====
section
/-! DEFINITION. Which words have the form the spec gives them. EVERY command word is legal (30_encoding.md R72, R73), so
nothing here is a condition of decoding or of running a command; `Instr.canonical` is what an assembler writes, and the
other three checks are about the words the block itself makes. -/

namespace Sys2Proof

/-- The form an assembler writes: the fields a NOP ignores are 0 (R73, R79). The other commands have no second form. -/
def Instr.canonical : Instr → Bool
  | .nop h r => h == 0 && r == 0
  | .cap _ _ => true
  | .enc _ _ => true
  | .dec _ _ => true

/-- A word the block may put into DOUT: a data token whose byte is not 0, or the one end token 0x100 (R76, R133). -/
def Token.wellFormedOutput (t : Token) : Bool :=
  if t.getLsbD 8 then t == 0x100#9 else t != 0#9

/-- A word the block may put into RSP: an error carries the value 0 (R77, R162). -/
def Response.wellFormed (w : Response) : Bool :=
  !w.getLsbD 64 || w.extractLsb' 0 64 == 0#64

/-- MASK holds exactly one of the eight weights (R26). -/
def maskOneHot (m : Byte) : Bool :=
  [128#8, 64#8, 32#8, 16#8, 8#8, 4#8, 2#8, 1#8].contains m

end Sys2Proof
end

