-- ==== Sys2Proof/Decode.lean ====
section
/-! DEFINITION. The decoder of command words, then the encoder (30_encoding.md R70 to R73).
The CMD port carries one 66-bit word (R34), not bytes in a memory; how a platform carries it over a narrower bus is not
defined (R70, N13), so the decoder reads the word as one number. -/

namespace Sys2Proof

/-- Why a number is not a command word. -/
inductive DecodeReject where
  /-- It needs more than the 66 bits of the CMD port (R70). -/
  | widerThanCommandWord
deriving DecidableEq, Repr

/-- The field op, bits 65:64 (R70). -/
def opField (w : CommandWord) : BitVec 2 := w.extractLsb' 64 2

/-- The field h, bits 63:32 (R70), taken as it stands (R72). -/
def hField (w : CommandWord) : Word := w.extractLsb' 32 32

/-- The field r, bits 31:0 (R70), taken as it stands (R72). -/
def rField (w : CommandWord) : Word := w.extractLsb' 0 32

/-- The opcode a value of the field op stands for (R71): all four values are defined. -/
def opcodeOf (b : BitVec 2) : Opcode :=
  if b = 0b00#2 then .nop
  else if b = 0b01#2 then .cap
  else if b = 0b10#2 then .enc
  else .dec

/-- The command of a 66-bit word. It is total: no command word is reserved or illegal (R73). -/
def decodeWord (w : CommandWord) : Instr :=
  match opcodeOf (opField w) with
  | .nop => .nop (hField w) (rField w)
  | .cap => .cap (hField w) (rField w)
  | .enc => .enc (hField w) (rField w)
  | .dec => .dec (hField w) (rField w)

/-- The decoder on any number: a number that does not fit the CMD port is rejected by name. -/
def decode (n : Nat) : Except DecodeReject Instr :=
  if n < 2 ^ 66 then .ok (decodeWord (BitVec.ofNat 66 n)) else .error .widerThanCommandWord

/-- The command of the table's bits `w` (bit 0 the least significant of the one 66-bit word). The table gives every row the
same 66 bits, so `_nbits` (in whole bytes) tells nothing more. -/
def decodeTableWord (_nbits w : Nat) : Option Instr :=
  match decode w with
  | .ok i => some i
  | .error _ => none

/-- A word of the format CMD66 from its three fields (R70). -/
def commandWord (op : Opcode) (h r : Word) : CommandWord := (op.bits ++ h) ++ r

/-- The encoder: the word of a command (R70, R71). -/
def encode : Instr → CommandWord
  | .nop h r => commandWord .nop h r
  | .cap h r => commandWord .cap h r
  | .enc h r => commandWord .enc h r
  | .dec h r => commandWord .dec h r

end Sys2Proof
end

