-- ==== Sys2Proof/Machine/State.lean ====
section
/-! DEFINITION. The state of LSBC (10_state.md R20), what the host side holds, the reasons a step can stop, and the state
after reset (R43). Plain data throughout. -/

namespace Sys2Proof.Machine

/-- The eight values of PHASE (R33). Their numbering in hardware is not observable, so they are names. -/
inductive Phase where
  /-- No command in progress; the CMD port is ready. -/
  | idle
  /-- ENC needs the next payload byte. -/
  | encFetch
  /-- ENC writes one bit into one cell, or finds no cell left. -/
  | encBit
  /-- A response word is to be put into RSP. -/
  | resp
  /-- ENC discards the rest of the payload frame. -/
  | encDrain
  /-- DEC reads one cell, or finds no cell left. -/
  | decBit
  /-- DEC puts an assembled non-zero byte into DOUT. -/
  | decEmit
  /-- DEC puts the end token into DOUT. -/
  | decEnd
deriving DecidableEq, Repr

/-- The pixel-buffer space (R50): the attached cells in strictly rising cell address. An unlisted address reads as NOTHING:
no cell is attached there (R53). So the form has no second condition. -/
abbrev Memory := List Host.Cell

/-- The canonical form of a memory. -/
abbrev Memory.wf (m : Memory) : Prop := m.Pairwise (fun x y => x.1 < y.1)

/-- One move of the host (R45). -/
inductive HostMove where
  /-- ISSUE(w): present a command word on the CMD port. -/
  | issue (w : CommandWord)
  /-- PUSH(t): push a payload token into PIN. -/
  | push (t : Token)
  /-- POP_DOUT: take the token in DOUT. -/
  | popDout
  /-- POP_RSP: take the word in RSP. -/
  | popRsp
  /-- RESET (R180). -/
  | reset
  /-- Read the cell at `a` of the memory the host owns (R45, R52). -/
  | readCell (a : Wide)
  /-- Write `v` to the cell at `a` of the memory the host owns (R45, R52); a cell not attached before is attached by it. -/
  | writeCell (a : Wide) (v : Byte)
  /-- Attach a memory whose cells 0, 1, 2, ... hold these bytes (R53, R184), in place of the one attached before. -/
  | lend (cells : List Byte)
deriving DecidableEq, Repr

/-- One turn of the schedule: R197 lets the two agents interleave freely, and the list of turns in `State` says which one
acts next. -/
inductive Turn where
  /-- The engine takes its step, or holds. -/
  | engine
  /-- The host makes this move if it is enabled; a move that is not enabled does not happen (R45). -/
  | host (m : HostMove)
  /-- A line of an R79 program: the engine takes as many steps as it can, then the move is made as soon as it is enabled. -/
  | line (m : HostMove)
deriving DecidableEq, Repr

/-- What the host has seen (R198), the newest first in every list. It is the host's, not the block's (R41): no rule of the
engine reads it, and RESET leaves it. -/
structure HostView where
  /-- The words popped from RSP. -/
  responses : List Response
  /-- The tokens popped from DOUT. -/
  outputs : List Token
  /-- The tokens each ENC took from PIN, one list for each ENC issued. -/
  takes : List (List Token)
  /-- The memory at the end of each loan (R52, R62). -/
  loans : List Memory
  /-- The values returned by the host's own reads of cells. -/
  reads : List Byte
deriving DecidableEq, Repr

/-- The whole state. The fields up to `rsp` are R20's, one for one; `mem` is the memory behind the MEM port (R38, R50);
`turns` and `host` are the other agent's (R14): the moves still to come, and what it has seen. -/
structure State where
  /-- OP (R23). -/
  op : Opcode
  /-- H (R21). -/
  h : Word
  /-- R (R22). -/
  r : Word
  /-- ROW (R24). -/
  row : Word
  /-- COL (R25). -/
  col : Word
  /-- MASK (R26). -/
  mask : Byte
  /-- CUR (R27). -/
  cur : Byte
  /-- RES (R28). -/
  res : Wide
  /-- RC (R29): set is 1, OutOfSpace. -/
  rc : Bool
  /-- SRC_END (R29). -/
  srcEnd : Bool
  /-- PHASE (R33). -/
  phase : Phase
  /-- The PIN slot (R35): empty is `none`. -/
  pin : Option Token
  /-- The DOUT slot (R36). -/
  dout : Option Token
  /-- The RSP slot (R37). -/
  rsp : Option Response
  /-- The pixel-buffer memory (R50). -/
  mem : Memory
  /-- The turns to come, the next first; none left is the engine's turn for ever (R197, R198). -/
  turns : List Turn
  /-- What the host has seen (R198). -/
  host : HostView
deriving DecidableEq, Repr

/-- The machine stops with a fault. OutOfSpace is NOT one: it is the error the spec describes, and the machine takes it and
goes on (60_exceptions.md R160 to R166). -/
inductive Fault where
  /-- Raised by the host's own read of a cell that no memory attaches (R60: nothing at or above T). Safe: the model stops. -/
  | hostReadUnattached
deriving DecidableEq, Repr

/-- The model gives the step no meaning. -/
inductive Refusal where
  /-- Raised by `exec` for a command without a meaning. No command is in that case. Safe. -/
  | notModelled (mnemonic : String)
  /-- Raised by ENC_BIT and DEC_BIT when they reach a cell address that no attached cell has (U5: refuse). Safe. -/
  | cellNotAttached
  /-- Raised by the host's access to a buffer on loan against the ownership rule of R52 (U4: refuse). Safe. -/
  | bufferOnLoan
deriving DecidableEq, Repr

/-- The machine right after reset (R43). No memory is attached and the host has made no move yet. -/
def State.reset : State where
  op := .nop
  h := 0
  r := 0
  row := 0
  col := 0
  mask := 128
  cur := 0
  res := 0
  rc := false
  srcEnd := false
  phase := .idle
  pin := none
  dout := none
  rsp := none
  mem := []
  turns := []
  host := ⟨[], [], [], [], []⟩

end Sys2Proof.Machine
end

