-- ==== Sys2Proof/Machine/Operands.lean ====
section
/-! DEFINITION. Operand forms: the fields of tokens and responses (30_encoding.md R75 to R77), the cell count, the cell
address and the cursor's position (10_state.md R31, 20_memory.md R51), and the capacity (40_capacity.md R90). -/

namespace Sys2Proof.Machine

/-- The field eos of a PIN token, and end of a DOUT token (R75, R76): bit 8. -/
def tokenIsEnd (t : Token) : Bool := t.getLsbD 8

/-- The field data of a token: bits 7:0 (R75, R76). -/
def tokenData (t : Token) : Byte := t.extractLsb' 0 8

/-- A data token (R75, R76). -/
def dataToken (b : Byte) : Token := 0#1 ++ b

/-- The end token with data 0x00: END, and the canonical EOS (R75, R76). -/
def endToken : Token := 0x100#9

/-- The field err of a response word: bit 64 (R77). -/
def responseErr (w : Response) : Bool := w.getLsbD 64

/-- The field value of a response word: bits 63:0 (R77). -/
def responseValue (w : Response) : Wide := w.extractLsb' 0 64

/-- The response word of an err bit and a value (R77). -/
def responseWord (err : Bool) (value : Wide) : Response := BitVec.ofBool err ++ value

/-- `zext_64` of an operand (R10, R72). -/
def zext64 (x : Word) : Wide := x.setWidth 64

/-- T = h * r in 64 bits (R50, R72). -/
def totalCells (h r : Word) : Wide := zext64 h * zext64 r

/-- floor(T / 8) (R90): the logical right shift by 3 of R91. -/
def capacity (h r : Word) : Wide := totalCells h r >>> 3

/-- The cell address of row `y`, column `x` in a buffer with rows of `r` cells (R51). -/
def cellAddressAt (r y x : Word) : Wide := zext64 y * zext64 r + zext64 x

/-- The cell address the cursor stands at (R51). -/
def cellAddress (s : State) : Wide := cellAddressAt s.r s.row s.col

/-- `exhausted` (R31): no cell is left for the next bit. -/
def exhausted (s : State) : Bool := s.row == s.h || s.r == 0

/-- The column and the row after `advance_pos` (R32). -/
def nextCol (s : State) : Word := if s.col + 1 = s.r then 0 else s.col + 1

/-- See `nextCol`. -/
def nextRow (s : State) : Word := if s.col + 1 = s.r then s.row + 1 else s.row

/-- The mask advance of R32. -/
def nextMask (m : Byte) : Byte := if m = 1 then 128 else m >>> 1

end Sys2Proof.Machine
end

