-- ==== Sys2Proof/Machine/Flags.lean ====
section
/-! DEFINITION. The tests and flags the steps compute: the parity of a cell and the perturbation (41_encode.md R104), the
bit of CUR under MASK (R103), the end of a byte (10_state.md R32), and the loan of the buffer (20_memory.md R52). -/

namespace Sys2Proof.Machine

/-- The parity of a cell, `v % 2`, which is its bit 0 (R9). -/
def lsb (v : Byte) : Bool := v.getLsbD 0

/-- `perturb(v, b)` (R104): the one definition R11 names. -/
def perturb (v : Byte) (b : Bool) : Byte :=
  if lsb v = b then v else if 127#8 < v then v - 1 else v + 1

/-- The bit of CUR that MASK selects (R103). -/
def currentBit (s : State) : Bool := s.cur &&& s.mask != 0

/-- MASK selects the last bit of a byte (R32). -/
def lastBit (s : State) : Bool := s.mask == 1

/-- CUR after DEC_BIT has read a cell with value `v` (R132): only bit 0 of the cell counts. -/
def gathered (s : State) (v : Byte) : Byte := if lsb v then s.cur ||| s.mask else s.cur

/-- The CMD port is ready (R34). -/
def cmdReady (s : State) : Bool := s.phase == .idle

/-- The buffer is lent to an ENC: from its issue until its response word is in RSP (R52). -/
def lentToEnc (s : State) : Bool :=
  s.phase == .encFetch || s.phase == .encBit || (s.phase == .resp && s.op == .enc)

/-- The buffer is lent to a DEC: from its issue until its end token is in DOUT (R52). -/
def lentToDec (s : State) : Bool :=
  s.phase == .decBit || s.phase == .decEmit || s.phase == .decEnd

/-- `a` is a cell of the buffer that the latched operands describe (R50). -/
def inBuffer (s : State) (a : Wide) : Bool := a < totalCells s.h s.r

/-- The ownership rule (R52) lets the host read the cell at `a`. -/
def hostMayRead (s : State) (a : Wide) : Bool := !(lentToEnc s && inBuffer s a)

/-- The ownership rule (R52) lets the host write the cell at `a`. -/
def hostMayWrite (s : State) (a : Wide) : Bool := !((lentToEnc s || lentToDec s) && inBuffer s a)

/-- The ownership rule (R52) lets the host put another memory in place of the attached one. -/
def hostMayLend (s : State) : Bool := !(lentToEnc s || lentToDec s)

/-- The engine makes no state change: it is in IDLE, or its step is a `hold` (R10, R44). -/
def engineHolds (s : State) : Bool :=
  match s.phase with
  | .idle => true
  | .encFetch => s.pin.isNone
  | .encDrain => s.pin.isNone
  | .resp => s.rsp.isSome
  | .decEmit => s.dout.isSome
  | .decEnd => s.dout.isSome
  | .encBit => false
  | .decBit => false

end Sys2Proof.Machine
end

