-- ==== Sys2Proof/Machine/Ops.lean ====
section
/-! DEFINITION. The named operations over memory, registers and slots, each an update of the whole state written once:
cell reads and writes (20_memory.md R55, R56), command issue (30_encoding.md R74), the cursor (10_state.md R32), the slots
(R35 to R37), the end of a loan (R52), and the one error: taking OutOfSpace (60_exceptions.md R163) and, beside it, the
response that reports it (R44, R166: there is no other return). -/

namespace Sys2Proof.Machine

/-- The outcome of a step of this machine. -/
abbrev Result := Host.Outcome State Fault Refusal

/-! ### Memory -/

/-- `MemRead(a, 1)` (R55); `none` where no cell is attached. -/
def Memory.read : Memory → Nat → Option Byte
  | [], _ => none
  | (k, v) :: rest, a => if k = a then some v else Memory.read rest a

/-- `MemWrite(a, 1, v)` (R56), keeping the list in rising address; at an unlisted address it attaches the cell. -/
def Memory.write : Memory → Nat → Byte → Memory
  | [], a, v => [(a, v)]
  | (k, w) :: rest, a, v =>
    if a < k then (a, v) :: (k, w) :: rest
    else if a = k then (a, v) :: rest
    else (k, w) :: Memory.write rest a v

/-- The memory whose cells from address `a` on hold these bytes. -/
def Memory.ofBytes : Nat → List Byte → Memory
  | _, [] => []
  | a, v :: rest => (a, v) :: Memory.ofBytes (a + 1) rest

/-! ### Registers -/

/-- `PHASE <- p`, the one form of control transfer (R33). -/
def State.setPhase (s : State) (p : Phase) : State := { s with phase := p }

/-- `CUR <- b`. -/
def State.setCur (s : State) (b : Byte) : State := { s with cur := b }

/-- `RES <- v`. -/
def State.setRes (s : State) (v : Wide) : State := { s with res := v }

/-- `OP <- op; H <- h; R <- r; RC <- 0; SRC_END <- 0`: what CAP, ENC and DEC share at issue (R74). -/
def State.latch (s : State) (op : Opcode) (h r : Word) : State :=
  { s with op := op, h := h, r := r, rc := false, srcEnd := false }

/-- A fresh BitCursor (R30, R74): ROW, COL and MASK are 0, 0 and 128. -/
def State.freshCursor (s : State) : State := { s with row := 0, col := 0, mask := 128 }

/-- `advance_pos` (R32). -/
def State.advancePos (s : State) : State := { s with col := nextCol s, row := nextRow s }

/-- The mask advance (R32). -/
def State.advanceMask (s : State) : State := { s with mask := nextMask s.mask }

/-! ### Memory port -/

/-- Write one cell of the buffer. -/
def State.storeCell (s : State) (a : Nat) (v : Byte) : State := { s with mem := Memory.write s.mem a v }

/-- The loan of the buffer ends here (R52, R62): the host sees the memory as it now is. -/
def State.endLoan (s : State) : State := { s with host := { s.host with loans := s.mem :: s.host.loans } }

/-! ### Slots -/

/-- `put(PIN, t)` (R35, R45). -/
def State.putPin (s : State) (t : Token) : State := { s with pin := some t }

/-- Add a token to the list of those the ENC in progress has taken. -/
def recordTake (t : Token) : List (List Token) → List (List Token)
  | [] => [[t]]
  | frame :: older => (t :: frame) :: older

/-- `take(PIN)`, the token being `t`; the host can count the tokens an ENC took (R198). -/
def State.takePin (s : State) (t : Token) : State :=
  { s with pin := none, host := { s.host with takes := recordTake t s.host.takes } }

/-- `put(DOUT, t)` (R36). -/
def State.putDout (s : State) (t : Token) : State := { s with dout := some t }

/-- `take(DOUT)`, the token `t` going to the host (R45). -/
def State.takeDout (s : State) (t : Token) : State :=
  { s with dout := none, host := { s.host with outputs := t :: s.host.outputs } }

/-- `put(RSP, w)` (R37). -/
def State.putRsp (s : State) (w : Response) : State := { s with rsp := some w }

/-- `take(RSP)`, the word `w` going to the host (R45). -/
def State.takeRsp (s : State) (w : Response) : State :=
  { s with rsp := none, host := { s.host with responses := w :: s.host.responses } }

/-- A new ENC begins: it has taken no token yet. -/
def State.openTakes (s : State) : State := { s with host := { s.host with takes := [] :: s.host.takes } }

/-- The value of a cell the host has read. -/
def State.recordRead (s : State) (v : Byte) : State := { s with host := { s.host with reads := v :: s.host.reads } }

/-- The turns left. -/
def State.setTurns (s : State) (ts : List Turn) : State := { s with turns := ts }

/-- The memory attached. -/
def State.setMem (s : State) (m : Memory) : State := { s with mem := m }

/-! ### Outcomes shared by several steps -/

/-- `hold` (R10): no state changes; the same step is tried again. -/
def hold (s : State) : Result := .next s

/-- Command issue (R34, R74): a command is accepted only in IDLE, and `accepted` is then the next state; presented in any
other phase it is not accepted and has no effect. -/
def acceptCommand (s accepted : State) : Result := if cmdReady s then .next accepted else .next s

/-- What ENC and DEC share at issue (R74, R101, R131): the operands, a fresh cursor, CUR and RES cleared. -/
def State.beginBitCommand (s : State) (op : Opcode) (h r : Word) : State :=
  (((s.latch op h r).freshCursor).setCur 0).setRes 0

/-- `raise OutOfSpace` (R163), the taking of the one exception: RC and PHASE change and nothing else. -/
def State.raiseOutOfSpace (s : State) : State := { s with rc := true, phase := .resp }

/-- The phase that follows the response word (R44): the drain, when an ENC has not seen the end of its frame. -/
def phaseAfterResponse (s : State) : Phase := if s.op = .enc ∧ s.srcEnd = false then .encDrain else .idle

/-- The end of the loan at the response word (R52): only an ENC had the buffer. -/
def endEncLoan (s : State) : State :=
  { s with host := { s.host with loans := if s.op = .enc then s.mem :: s.host.loans else s.host.loans } }

/-- The RESP step (R44), shared by CAP and ENC; it is also how OutOfSpace reaches the host and the command ends (R163, R166). -/
def respStep (s : State) : Result :=
  match s.rsp with
  | some _ => hold s
  | none => .next (((endEncLoan s).putRsp (responseWord s.rc s.res)).setPhase (phaseAfterResponse s))

end Sys2Proof.Machine
end

