-- ==== Sys2Proof/Machine/Capacity.lean ====
section
/-! DEFINITION. CAP, the capacity calculator (40_capacity.md). Its RESP step is `respStep`. -/

namespace Sys2Proof.Machine

/-- CAP (R74, R90): latch the operands, put the capacity into RES, and go to RESP. -/
def execCap (h r : Word) (s : State) : Result :=
  acceptCommand s (((s.latch .cap h r).setRes (capacity h r)).setPhase .resp)

end Sys2Proof.Machine
end

