-- ==== Sys2Proof/Machine/Decoder.lean ====
section
/-! DEFINITION. DEC, the LSB bit-decoder (42_decode.md): its issue and its steps DEC_BIT, DEC_EMIT and DEC_END. -/

namespace Sys2Proof.Machine

/-- DEC (R74, R131): latch the operands, clear the working state, and go to DEC_BIT. -/
def execDec (h r : Word) (s : State) : Result :=
  acceptCommand s ((s.beginBitCommand .dec h r).setPhase .decBit)

/-- The phase after a cell has been read, `c` being CUR with its bit (R132, R133): only a whole group is tested for zero. -/
def phaseAfterGather (s : State) (c : Byte) : Phase :=
  if lastBit s then (if c = 0 then .decEnd else .decEmit) else .decBit

/-- The step DEC_BIT (R132). It writes no memory. -/
def decBit (s : State) : Result :=
  if exhausted s then .next (s.setPhase .decEnd)
  else
    match Memory.read s.mem (cellAddress s).toNat with
    | none => .refused .cellNotAttached
    | some v =>
      .next ((((s.setCur (gathered s v)).advancePos).advanceMask).setPhase (phaseAfterGather s (gathered s v)))

/-- The step DEC_EMIT (R134). -/
def decEmit (s : State) : Result :=
  match s.dout with
  | some _ => hold s
  | none => .next (((s.putDout (dataToken s.cur)).setCur 0).setPhase .decBit)

/-- The step DEC_END (R135): the same end token whether a terminator or the end of the cells stopped the DEC. The loan of
the buffer ends with it (R52). -/
def decEnd (s : State) : Result :=
  match s.dout with
  | some _ => hold s
  | none => .next (((s.endLoan).putDout endToken).setPhase .idle)

end Sys2Proof.Machine
end

