-- ==== Sys2Proof/Machine/Encoder.lean ====
section
/-! DEFINITION. ENC, the LSB bit-encoder (41_encode.md): its issue and its steps ENC_FETCH, ENC_BIT and ENC_DRAIN.
Its RESP step is `respStep`. -/

namespace Sys2Proof.Machine

/-- ENC (R74, R101): latch the operands, clear the working state, and go to ENC_FETCH. -/
def execEnc (h r : Word) (s : State) : Result :=
  acceptCommand s (((s.beginBitCommand .enc h r).openTakes).setPhase .encFetch)

/-- The byte ENC_FETCH puts into CUR: the end token is the value 0 (R102). -/
def fetchedByte (t : Token) : Byte := if tokenIsEnd t then 0 else tokenData t

/-- `SRC_END <- 1` when the token taken is the end token (R102, R109). -/
def State.noteEnd (s : State) (t : Token) : State := { s with srcEnd := s.srcEnd || tokenIsEnd t }

/-- The step ENC_FETCH (R102): it does not look at the cursor. -/
def encFetch (s : State) : Result :=
  match s.pin with
  | none => hold s
  | some t => .next ((((s.takePin t).noteEnd t).setCur (fetchedByte t)).setPhase .encBit)

/-- The memory after ENC_BIT has used a cell that holds `v` (R56, R103): no write when the parity already matches. -/
def memAfterBit (s : State) (v : Byte) : Memory :=
  if lsb v = currentBit s then s.mem else Memory.write s.mem (cellAddress s).toNat (perturb v (currentBit s))

/-- The phase after the bit under MASK has been written (R103, R106): a whole zero byte ends the ENC with success. -/
def phaseAfterBit (s : State) : Phase :=
  if lastBit s then (if s.cur = 0 then .resp else .encFetch) else .encBit

/-- The step ENC_BIT (R103): it looks for the end of the cells before it reads one (R107, R167). -/
def encBit (s : State) : Result :=
  if exhausted s then .next s.raiseOutOfSpace
  else
    match Memory.read s.mem (cellAddress s).toNat with
    | none => .refused .cellNotAttached
    | some v => .next ((((s.setMem (memAfterBit s v)).advancePos).advanceMask).setPhase (phaseAfterBit s))

/-- The step ENC_DRAIN (R109): a data token is dropped, the end token ends the ENC. -/
def encDrain (s : State) : Result :=
  match s.pin with
  | none => hold s
  | some t => .next (((s.takePin t).noteEnd t).setPhase (if tokenIsEnd t then .idle else .encDrain))

end Sys2Proof.Machine
end

