-- ==== Sys2Proof/Machine/Nop.lean ====
section
/-! DEFINITION. NOP (43_nop.md). -/

namespace Sys2Proof.Machine

/-- NOP (R150): accepted like every command and without any effect; its fields are ignored. -/
def execNop (_h _r : Word) (s : State) : Result := acceptCommand s s

end Sys2Proof.Machine
end

