-- ==== Sys2Proof/Machine/Dispatch.lean ====
section
/-! DEFINITION. The meaning of every command: its issue (30_encoding.md R71, R74). -/

namespace Sys2Proof.Machine

/-- The issue of a command on the CMD port. -/
def exec (i : Instr) (s : State) : Host.Outcome State Fault Refusal :=
  match i with
  | .nop h r => Sys2Proof.Machine.execNop h r s
  | .cap h r => Sys2Proof.Machine.execCap h r s
  | .enc h r => Sys2Proof.Machine.execEnc h r s
  | .dec h r => Sys2Proof.Machine.execDec h r s

end Sys2Proof.Machine
end

