-- ==== Sys2Proof/Machine/Engine.lean ====
section
/-! DEFINITION. The engine's step relation: in each PHASE other than IDLE exactly one step rule applies (10_state.md R33,
R44). -/

namespace Sys2Proof.Machine

/-- One turn of the engine. In IDLE it has no step of its own (R44, R183). -/
def engineStep (s : State) : Result :=
  match s.phase with
  | .idle => hold s
  | .encFetch => encFetch s
  | .encBit => encBit s
  | .resp => respStep s
  | .encDrain => encDrain s
  | .decBit => decBit s
  | .decEmit => decEmit s
  | .decEnd => decEnd s

end Sys2Proof.Machine
end

