-- ==== Sys2Proof/Machine/HostMoves.lean ====
section
/-! DEFINITION. The host's moves (10_state.md R45), RESET among them (70_reset_and_hazards.md R180), and one turn of the
schedule (R197). -/

namespace Sys2Proof.Machine

/-- The condition R45 gives each move. An access to the buffer is not shut out here: one that breaks the ownership rule is
given no meaning (U4). -/
def moveEnabled (m : HostMove) (s : State) : Bool :=
  match m with
  | .issue _ => cmdReady s
  | .push _ => s.pin.isNone
  | .popDout => s.dout.isSome
  | .popRsp => s.rsp.isSome
  | .reset => true
  | .readCell _ => true
  | .writeCell _ _ => true
  | .lend _ => true

/-- RESET (R180): every register and slot takes its value of R43; the memory keeps what it holds, and so does the host. -/
def resetMove (s : State) : State := { State.reset with mem := s.mem, turns := s.turns, host := s.host }

/-- PUSH(t) (R45): it does not happen when PIN is full. -/
def pushMove (t : Token) (s : State) : Result :=
  match s.pin with
  | none => .next (s.putPin t)
  | some _ => .next s

/-- POP_DOUT (R45). -/
def popDoutMove (s : State) : Result :=
  match s.dout with
  | some t => .next (s.takeDout t)
  | none => .next s

/-- POP_RSP (R45). -/
def popRspMove (s : State) : Result :=
  match s.rsp with
  | some w => .next (s.takeRsp w)
  | none => .next s

/-- The host reads a cell of its own memory (R45, R52). -/
def readCellMove (a : Wide) (s : State) : Result :=
  if hostMayRead s a then
    match Memory.read s.mem a.toNat with
    | some v => .next (s.recordRead v)
    | none => .fault .hostReadUnattached
  else .refused .bufferOnLoan

/-- The host writes a cell of its own memory (R45, R52). -/
def writeCellMove (a : Wide) (v : Byte) (s : State) : Result :=
  if hostMayWrite s a then .next (s.storeCell a.toNat v) else .refused .bufferOnLoan

/-- The host attaches a memory (R53, R184). -/
def lendMove (cells : List Byte) (s : State) : Result :=
  if hostMayLend s then .next (s.setMem (Memory.ofBytes 0 cells)) else .refused .bufferOnLoan

/-- The host makes a move (R45). A move that is not enabled does not happen and leaves no trace. -/
def hostMove (m : HostMove) (s : State) : Result :=
  match m with
  | .issue w => exec (decodeWord w) s
  | .push t => pushMove t s
  | .popDout => popDoutMove s
  | .popRsp => popRspMove s
  | .reset => .next (resetMove s)
  | .readCell a => readCellMove a s
  | .writeCell a v => writeCellMove a v s
  | .lend cells => lendMove cells s

/-- A line of an R79 program, `ts` being the turns after it: the engine steps while it can; when it is IDLE or holds, the
move is made if it is enabled. If it is not, neither agent can move and the line waits for ever (R191). -/
def lineTurn (m : HostMove) (ts : List Turn) (s : State) : Result :=
  if engineHolds s = false then engineStep s
  else if moveEnabled m s then hostMove m (s.setTurns ts)
  else .next s

/-- One turn of the schedule (R197). With no turn left the host makes no further move and the engine goes on (R198). -/
def takeTurn (s : State) : Result :=
  match s.turns with
  | [] => engineStep s
  | .engine :: ts => engineStep (s.setTurns ts)
  | .host m :: ts => hostMove m (s.setTurns ts)
  | .line m :: ts => lineTurn m ts s

/-- Present the word on the CMD port as the host's next move, with the port ready (R34, R45). -/
def presentCommand (s : State) (w : CommandWord) : State :=
  { s with phase := .idle, turns := .host (.issue w) :: s.turns }

end Sys2Proof.Machine
end

