-- ==== Sys2Proof/Machine/Step.lean ====
section
/-! DEFINITION. The step function, and where it finds its next command: at the head of the schedule, on the CMD port
(10_state.md R33, R34: no command is fetched from any memory). -/

namespace Sys2Proof.Machine

/-- One step of the two agents (00_scope.md R14): the turn that the schedule names. -/
def step (s : State) : Host.Outcome State Fault Refusal := takeTurn s

/-- The state whose next step issues the command word `w`. A number that no CMD port can carry places no word. -/
def State.withFetchWord (s : State) (_nbits w : Nat) : State :=
  if w < 2 ^ 66 then presentCommand s (BitVec.ofNat 66 w) else s

end Sys2Proof.Machine
end

