-- ==== Sys2Proof/Machine/Assembler.lean ====
section
/-! DEFINITION. The text form of host programs (30_encoding.md R79): which lines have the form R79 gives them, and the host
moves each stands for. A number that does not fit its field is refused, never truncated (70_reset_and_hazards.md R193). -/

namespace Sys2Proof.Machine

/-- A line of a program; the numbers are as they are written. -/
inductive Line where
  | nop
  | cap (h r : Nat)
  | enc (h r : Nat)
  | dec (h r : Nat)
  /-- `PUSH B(d)`. -/
  | pushByte (d : Nat)
  | pushEos
  /-- `PUSH "text"`, one token a character. -/
  | pushText (text : List Char)
  | popd
  | popr
  | reset
deriving DecidableEq, Repr

/-- An operand of a command fits its 32 bits (R72, R193). -/
def operandFits (n : Nat) : Bool := n < 2 ^ 32

/-- A payload byte fits its 8 bits (R75). -/
def byteFits (n : Nat) : Bool := n < 2 ^ 8

/-- PRESUMED (G1, log entry 14): the characters are ASCII, so their codes are below 128. -/
def charFits (c : Char) : Bool := c.toNat < 128

/-- Every number of the line fits its field. -/
def lineWellFormed : Line → Bool
  | .nop => true
  | .cap h r => operandFits h && operandFits r
  | .enc h r => operandFits h && operandFits r
  | .dec h r => operandFits h && operandFits r
  | .pushByte d => byteFits d
  | .pushEos => true
  | .pushText text => text.all charFits
  | .popd => true
  | .popr => true
  | .reset => true

/-- The moves of a line, its numbers taken into their fields (R79). -/
def lineMoves : Line → List HostMove
  | .nop => [.issue (encode (.nop 0 0))]
  | .cap h r => [.issue (encode (.cap (BitVec.ofNat 32 h) (BitVec.ofNat 32 r)))]
  | .enc h r => [.issue (encode (.enc (BitVec.ofNat 32 h) (BitVec.ofNat 32 r)))]
  | .dec h r => [.issue (encode (.dec (BitVec.ofNat 32 h) (BitVec.ofNat 32 r)))]
  | .pushByte d => [.push (dataToken (BitVec.ofNat 8 d))]
  | .pushEos => [.push endToken]
  | .pushText text => text.map fun c => .push (dataToken (BitVec.ofNat 8 c.toNat))
  | .popd => [.popDout]
  | .popr => [.popRsp]
  | .reset => [.reset]

/-- The turns of a program (R79): each move waits until it is enabled, the engine running in between; `none` when a line
is not well-formed. -/
def assemble : List Line → Option (List Turn)
  | [] => some []
  | l :: rest =>
    match lineWellFormed l, assemble rest with
    | true, some ts => some ((lineMoves l).map Turn.line ++ ts)
    | _, _ => none

end Sys2Proof.Machine
end

