-- ==== Sys2Proof/Safety.lean ====
section
/-! DEFINITION. The terms claims use: runs, final states (70_reset_and_hazards.md R198), the transition graph (10_state.md
R33), the invariants (R46), what the host must establish (R184 to R190), and the whole effects of ENC and DEC as functions
(41_encode.md R110, 42_decode.md R136). -/

namespace Sys2Proof.Machine

/-! ### Runs -/

/-- `k` steps, stopping at the first fault or refusal. -/
def run : Nat → State → Result
  | 0, s => .next s
  | k + 1, s =>
    match step s with
    | .next s' => run k s'
    | .fault f => .fault f
    | .refused f => .refused f

/-- `s` is reached from reset by some schedule of host moves and engine steps (R197, R198). -/
def Reachable (s : State) : Prop := ∃ k ts, run k (State.reset.setTurns ts) = .next s

/-- None of the turns `ts` brings a host move, in a state `s` with PHASE = IDLE, which changes by nothing else: a move that is
not enabled does not happen (R45), and a line waits for its move (R79), so the turns behind it never come. -/
def bringsNoMove (s : State) : List Turn → Bool
  | [] => true
  | .engine :: ts => bringsNoMove s ts
  | .host m :: ts => !moveEnabled m s && bringsNoMove s ts
  | .line m :: _ => !moveEnabled m s

/-- The state is final (R198): IDLE, every slot empty, and the host makes no further move. -/
def Final (s : State) : Prop :=
  s.phase = .idle ∧ s.pin = none ∧ s.dout = none ∧ s.rsp = none ∧ bringsNoMove s s.turns = true

/-- The host move that happens in the next step: a turn of the host makes its move when it is enabled (R45), and a line of a
program when the engine also holds (R79). -/
def moveMade (s : State) : Option HostMove :=
  match s.turns with
  | .host m :: _ => if moveEnabled m s then some m else none
  | .line m :: _ => if engineHolds s && moveEnabled m s then some m else none
  | _ => none

/-- The next turn is the engine's. -/
def engineActs (s : State) : Bool :=
  match s.turns with
  | [] => true
  | .engine :: _ => true
  | .host _ :: _ => false
  | .line _ :: _ => !engineHolds s

/-- The engine puts the word that ends a loan (R52, R62): an ENC's response, or a DEC's end token. -/
def loanEndsHere (s : State) : Bool :=
  engineActs s &&
    ((s.phase == .resp && s.op == .enc && s.rsp.isNone) || (s.phase == .decEnd && s.dout.isNone))

/-- The token an ENC takes from PIN in the next step (R102, R109). -/
def tokenTaken (s : State) : Option Token :=
  if engineActs s && (s.phase == .encFetch || s.phase == .encDrain) then s.pin else none

/-- The next step accepts an ENC (R74). -/
def encAccepted (s : State) : Bool :=
  match moveMade s with
  | some (.issue w) => opcodeOf (opField w) == .enc
  | _ => false

/-- The step from `s` neither faults nor is refused. -/
def Safe (s : State) : Prop := ∃ s', step s = .next s'

/-- The turn makes no RESET. -/
def turnNoReset : Turn → Bool
  | .host .reset => false
  | .line .reset => false
  | _ => true

/-- No turn of the schedule is a RESET. -/
def NoReset (ts : List Turn) : Prop := ∀ t ∈ ts, turnNoReset t = true

/-- The response words put so far and kept by nobody's reset: those the host popped and the one in RSP, newest first. -/
def responsesSoFar (s : State) : List Response := s.rsp.toList ++ s.host.responses

/-- The output tokens put so far: those the host popped and the one in DOUT, newest first. -/
def outputsSoFar (s : State) : List Token := s.dout.toList ++ s.host.outputs

/-! ### The transition graph (R33) -/

/-- The command that the next turn presents on the CMD port. -/
def nextIssued (s : State) : Option Opcode :=
  match s.turns with
  | .host (.issue w) :: _ => some (opcodeOf (opField w))
  | .line (.issue w) :: _ => some (opcodeOf (opField w))
  | _ => none

/-- CUR after the cell under the cursor has been read (R132); `none` where no cell is attached. -/
def gatheredNext (s : State) : Option Byte := (Memory.read s.mem (cellAddress s).toNat).map (gathered s)

/-- The edges of R33's graph, each with R33's condition read in the state it leaves. A hold, a NOP and the loops of R33 at
one phase do not leave it, so they are no edge here. -/
def phaseEdge (s : State) (p : Phase) : Bool :=
  match s.phase, p with
  | .idle, .resp => nextIssued s == some .cap
  | .idle, .encFetch => nextIssued s == some .enc
  | .idle, .decBit => nextIssued s == some .dec
  | .encFetch, .encBit => s.pin.isSome
  | .encBit, .encFetch => !exhausted s && lastBit s && s.cur != 0
  | .encBit, .resp => exhausted s || (lastBit s && s.cur == 0)
  | .resp, .encDrain => s.op == .enc && !s.srcEnd
  | .resp, .idle => !(s.op == .enc && !s.srcEnd)
  | .encDrain, .idle => s.pin.any tokenIsEnd
  | .decBit, .decEmit => !exhausted s && lastBit s && gatheredNext s != some 0
  | .decBit, .decEnd => exhausted s || (lastBit s && gatheredNext s == some 0)
  | .decEmit, .decBit => s.dout.isNone
  | .decEnd, .idle => s.dout.isNone
  | _, _ => false

/-! ### Invariants (R46) -/

/-- R46, clause by clause, with the facts it rests on: which command each phase belongs to, where the cursor stands when it
is exhausted (R163), how SRC_END follows the frame (R102, R109), and the words in the slots (R76, R77). -/
structure Inv (s : State) : Prop where
  /-- MASK is one-hot. -/
  mask_oneHot : maskOneHot s.mask = true
  fetch_mask : s.phase = .encFetch → s.mask = 128
  emit_mask : s.phase = .decEmit → s.mask = 128 ∧ s.cur ≠ 0
  /-- In a bit step the cursor stands in the buffer or is exhausted. -/
  bit_inside : s.phase = .encBit ∨ s.phase = .decBit → exhausted s = false → s.col < s.r ∧ s.row < s.h
  row_bound : s.op = .enc ∨ s.op = .dec → s.row ≤ s.h
  /-- In DEC_BIT every bit of CUR of weight MASK or lower is 0. -/
  dec_gathered : s.phase = .decBit → s.cur &&& (s.mask ||| (s.mask - 1)) = 0
  rc_phase : s.rc = true → s.op = .enc ∧ (s.phase = .resp ∨ s.phase = .encDrain ∨ s.phase = .idle)
  enc_op : s.phase = .encFetch ∨ s.phase = .encBit ∨ s.phase = .encDrain → s.op = .enc
  dec_op : s.phase = .decBit ∨ s.phase = .decEmit ∨ s.phase = .decEnd → s.op = .dec
  resp_op : s.phase = .resp → s.op = .cap ∨ s.op = .enc
  col_inside : s.op = .enc ∨ s.op = .dec → exhausted s = false → s.col < s.r
  col_atEnd : s.op = .enc ∨ s.op = .dec → s.row = s.h → s.col = 0
  fetch_srcEnd : s.phase = .encFetch ∨ s.phase = .encDrain → s.srcEnd = false
  bit_srcEnd : s.phase = .encBit → s.srcEnd = true → s.cur = 0
  enc_res : s.op = .enc → s.res = 0
  dout_word : ∀ t, s.dout = some t → t.wellFormedOutput = true
  rsp_word : ∀ w, s.rsp = some w → w.wellFormed = true

/-- The attached memory and every snapshot of it are in canonical form. -/
def MemInv (s : State) : Prop := Memory.wf s.mem ∧ ∀ m ∈ s.host.loans, Memory.wf m

/-- An attached memory holds every cell of an h by r buffer (R53, R184). -/
def covers (m : Memory) (h r : Word) : Prop := ∀ a, a < h.toNat * r.toNat → (Memory.read m a).isSome = true

/-! ### Payload frames and wire bits (R12, R78, R110) -/

/-- `bits8(d)` (R12): the bits MSB-first. -/
def bits8 (d : Byte) : List Bool :=
  [d.getLsbD 7, d.getLsbD 6, d.getLsbD 5, d.getLsbD 4, d.getLsbD 3, d.getLsbD 2, d.getLsbD 1, d.getLsbD 0]

/-- `byte8(q)` (R12), as the sum of weights of R136. -/
def byte8 (q : List Bool) : Byte := BitVec.ofNat 8 (q.foldl (fun n b => 2 * n + b.toNat) 0)

/-- The logical payload of a frame's data bytes (R78): those before the first 0. -/
def logicalPayload : List Byte → List Byte
  | [] => []
  | d :: rest => if d = 0 then [] else d :: logicalPayload rest

/-- A whole frame (R78): the data bytes, then an end token `e`. -/
def payloadFrame (d : List Byte) (e : Token) : List Token := d.map dataToken ++ [e]

/-- The wire bytes of the tokens an ENC has taken (R110): up to the first 0, the end token being a 0 (R102, R106). -/
def wireBytes : List Token → List Byte
  | [] => []
  | t :: rest =>
    let d := if t.getLsbD 8 then 0 else t.extractLsb' 0 8
    if d = 0 then [0] else d :: wireBytes rest

/-- The wire bits (R110). -/
def wireBits (tokens : List Token) : List Bool := (wireBytes tokens).flatMap bits8

/-- What R110 makes of the cell `a` with value `v`: the cells past the wire bits are untouched. -/
def encodedCell (q : List Bool) (a : Nat) (v : Byte) : Byte :=
  match q[a]? with
  | some b => perturb v b
  | none => v

/-- The first `total` cells of `after` are those of `before` with the wire bits `q` written (R110). -/
def EncodedCells (before after : Memory) (total : Nat) (q : List Bool) : Prop :=
  ∀ a, a < total → Memory.read after a = (Memory.read before a).map (encodedCell q a)

/-- Two memories hold the same first `total` cells. -/
def SameCells (m m' : Memory) (total : Nat) : Prop := ∀ a, a < total → Memory.read m a = Memory.read m' a

/-! ### Decoded groups (R136) -/

/-- The LSB of a cell. -/
def cellLsb (m : Memory) (a : Nat) : Bool := (Memory.read m a).any (fun v => v.getLsbD 0)

/-- `g[k]` (R136). -/
def cellGroup (m : Memory) (k : Nat) : Byte := byte8 ((List.range 8).map fun j => cellLsb m (8 * k + j))

/-- The groups from `k` on, at most `count` of them, before the first zero group. -/
def groupsFrom (m : Memory) : Nat → Nat → List Byte
  | 0, _ => []
  | count + 1, k => if cellGroup m k = 0 then [] else cellGroup m k :: groupsFrom m count (k + 1)

/-- The bytes a DEC gives on a buffer of `total` cells (R136). -/
def decodedBytes (m : Memory) (total : Nat) : List Byte := groupsFrom m (total / 8) 0

/-! ### Programs of one command (R79) -/

/-- ENC h, r; then the tokens of its frame; then POPR. -/
def encodeProgram (h r : Word) (tokens : List Token) : List Turn :=
  .line (.issue (encode (.enc h r))) :: (tokens.map fun t => .line (.push t)) ++ [.line .popRsp]

/-- DEC h, r; then `pops` times POPD. -/
def decodeProgram (h r : Word) (pops : Nat) : List Turn :=
  .line (.issue (encode (.dec h r))) :: List.replicate pops (.line .popDout)

end Sys2Proof.Machine
end

