-- ==== Sys2Proof/Certificates/Slice0/Obligations.lean ====
section
/-! DEFINITION. The statements for the provers. Each docstring names the rule of spec/ it formalises. The host's view
(`host`) and the schedule (`turns`) are the model's own (log entries 2 and 8): where a statement gives their next value, that
part is the model's choice. -/

open Sys2Proof Sys2Proof.Machine

/-! ### Encoding (30_encoding.md) -/

/-- Every command word of 95_test_vectors.md V-WORD, V-CAP and V-NOP decodes to the command it is written for. That the word is
read as one number is log entry 4, and that the NOP of V-NOP keeps its ignored fields is log entry 12 (the model's choices). -/
def Obligations.SpecWordsDecode : Prop :=
  (∀ p ∈ ([(0x00000000000000000, .nop 0 0), (0x10000000300000005, .cap 3 5), (0x20000000800000008, .enc 8 8),
      (0x30000000800000008, .dec 8 8), (0x20000000300000005, .enc 3 5), (0x30000000200000010, .dec 2 16)] :
      List (Nat × Instr)), decodeTableWord 72 p.1 = some p.2) ∧
  (∀ p ∈ ([(0x10000000000000000, .cap 0 0), (0x10000000000000009, .cap 0 9), (0x10000000900000000, .cap 9 0),
      (0x10000000100000007, .cap 1 7), (0x10000000100000008, .cap 1 8), (0x10000000200000009, .cap 2 9),
      (0x10000000300000005, .cap 3 5), (0x10000000800000008, .cap 8 8), (0x10000000A00000008, .cap 10 8),
      (0x10001000000010000, .cap 65536 65536), (0x1FFFFFFFFFFFFFFFF, .cap 4294967295 4294967295)] :
      List (Nat × Instr)), decodeTableWord 72 p.1 = some p.2) ∧
  decodeTableWord 72 0x0DEADBEEF12345678 = some (.nop 0xDEADBEEF 0x12345678)

/-- R70, R71: the encoding drops no bit, and every word is the word of the command it decodes to. For NOP words whose h or r is
not 0 the second clause is the model's choice: R73 lets those fields be ignored, and `Instr.nop` keeps them (log entry 12). -/
def Obligations.DecodeAndEncodeAgree : Prop :=
  (∀ i : Instr, decode (encode i).toNat = .ok i) ∧ (∀ w : CommandWord, encode (decodeWord w) = w)

/-- R70, R73: every 66-bit word is a command. That a command word is read as a plain number and that a number of 67 bits or more
is rejected by name are the model's choice (log entry 4), and so is that a NOP word's ignored fields come back (log entry 12). -/
def Obligations.CommandsAreExactlyThe66BitNumbers : Prop :=
  ∀ n : Nat, ((∃ i : Instr, decode n = .ok i ∧ (encode i).toNat = n) ↔ n < 2 ^ 66) ∧
    (2 ^ 66 ≤ n → decode n = .error .widerThanCommandWord)

/-- R73: no command word traps and none is refused, in any state; the word is read as one number (log entry 4). -/
def Obligations.NoCommandWordTraps : Prop :=
  ∀ (w : CommandWord) (s : State),
    ∃ i, decode w.toNat = .ok i ∧ hostMove (.issue w) s = exec i s ∧ ∃ t, exec i s = .next t

/-! ### The step and the CMD port (10_state.md R34, R45) -/

/-- R34, R45, R74: a turn that presents a command word runs exactly the command the word decodes to, the turn being used up;
the same for a line of an R79 program in IDLE, and for the word `withFetchWord` places (log entries 2 and 4). -/
def Obligations.StepRunsTheDecodedCommand : Prop :=
  ∀ (s : State) (w : CommandWord) (i : Instr) (ts : List Turn), decode w.toNat = .ok i →
    (s.turns = .host (.issue w) :: ts → step s = exec i { s with turns := ts }) ∧
    (s.turns = .line (.issue w) :: ts → s.phase = .idle → step s = exec i { s with turns := ts }) ∧
    (∀ nbits, step (s.withFetchWord nbits w.toNat) = exec i { s with phase := .idle })

/-- R34, R192: the CMD port is ready exactly in IDLE; a command word presented in any other phase is not accepted, is not
queued, and has no effect: the turn is used up and nothing else changes. -/
def Obligations.BusyBlockTakesNoCommand : Prop :=
  ∀ (s : State) (w : CommandWord) (ts : List Turn),
    (cmdReady s = true ↔ s.phase = .idle) ∧
    (s.phase ≠ .idle → s.turns = .host (.issue w) :: ts → step s = .next { s with turns := ts })

/-! ### Command issue: NOP, CAP, ENC, DEC -/

/-- R150: every word with op = 0b00 is a NOP whatever its other bits, and a NOP changes no state, in any state. -/
def Obligations.NopChangesNoState : Prop :=
  encode (.nop 0 0) = 0 ∧
  ∀ (w : CommandWord), opField w = 0 →
    ∃ h r, decode w.toNat = .ok (.nop h r) ∧ ∀ s : State, exec (.nop h r) s = .next s

/-- R74: the issue of each command in IDLE, every register, slot and cell given; in any other phase none is accepted. What
ENC does to the host's view is left open here. -/
def Obligations.IssueWritesExactlyWhatTheRuleSays : Prop :=
  (∀ (i : Instr) (s : State), s.phase ≠ .idle → exec i s = .next s) ∧
  ∀ (h r : Word) (s : State), s.phase = .idle →
    exec (.nop h r) s = .next s ∧
    exec (.cap h r) s = .next { s with
      op := .cap, h := h, r := r, rc := false, srcEnd := false,
      res := BitVec.ofNat 64 (h.toNat * r.toNat / 8), phase := .resp } ∧
    (∃ view, exec (.enc h r) s = .next { s with
      op := .enc, h := h, r := r, row := 0, col := 0, mask := 128, cur := 0,
      rc := false, res := 0, srcEnd := false, phase := .encFetch, host := view }) ∧
    exec (.dec h r) s = .next { s with
      op := .dec, h := h, r := r, row := 0, col := 0, mask := 128, cur := 0,
      rc := false, res := 0, srcEnd := false, phase := .decBit }

/-- R74: issue does not touch PIN, DOUT, RSP or memory, whatever the command and the phase; CAP leaves the BitCursor and CUR
too (R90). -/
def Obligations.IssueTouchesNoSlotAndNoCell : Prop :=
  ∀ (i : Instr) (s t : State), exec i s = .next t →
    t.pin = s.pin ∧ t.dout = s.dout ∧ t.rsp = s.rsp ∧ t.turns = s.turns ∧
    (∀ a, Memory.read t.mem a = Memory.read s.mem a) ∧
    (∀ h r, i = .cap h r → t.row = s.row ∧ t.col = s.col ∧ t.mask = s.mask ∧ t.cur = s.cur ∧ t.host = s.host)

/-- R42: no register value left by one command is read by the next. Two IDLE states that agree in slots, memory and host give
the same state after an ENC or a DEC, and after a CAP states that differ in the BitCursor and CUR at most. -/
def Obligations.IssueKeepsNothingOfTheLastCommand : Prop :=
  ∀ (a b : State) (h r : Word), a.phase = .idle → b.phase = .idle → a.pin = b.pin → a.dout = b.dout → a.rsp = b.rsp →
    a.mem = b.mem → a.turns = b.turns → a.host = b.host →
    exec (.enc h r) a = exec (.enc h r) b ∧ exec (.dec h r) a = exec (.dec h r) b ∧
    ∃ t u, exec (.cap h r) a = .next t ∧ exec (.cap h r) b = .next u ∧
      { t with row := u.row, col := u.col, mask := u.mask, cur := u.cur } = u

/-! ### CAP (40_capacity.md) -/

/-- R91: the product is exact for every operand pair, the quotient is the floor, and the largest result is 2^61 - 2^30. -/
def Obligations.CapacityIsExactForAllOperands : Prop :=
  ∀ h r : Word,
    (totalCells h r).toNat = h.toNat * r.toNat ∧
    (totalCells h r).toNat ≤ 2 ^ 64 - 2 ^ 33 + 1 ∧
    (capacity h r).toNat = h.toNat * r.toNat / 8 ∧
    (capacity h r).toNat ≤ 2 ^ 61 - 2 ^ 30 ∧
    (h = 0xFFFFFFFF → r = 0xFFFFFFFF → (capacity h r).toNat = 2 ^ 61 - 2 ^ 30)

/-- R90: CAP in IDLE answers, and its RESP step puts {0, floor(h*r/8)} into RSP and returns to IDLE, changing nothing else;
while RSP is full it holds. -/
def Obligations.CapAnswersTheCapacity : Prop :=
  ∀ (h r : Word) (s : State), s.phase = .idle →
    let t : State := { s with op := .cap, h := h, r := r, rc := false, srcEnd := false,
                              res := BitVec.ofNat 64 (h.toNat * r.toNat / 8), phase := .resp }
    exec (.cap h r) s = .next t ∧
    (s.rsp = none →
      engineStep t = .next { t with
        rsp := some (responseWord false (BitVec.ofNat 64 (h.toNat * r.toNat / 8))), phase := .idle }) ∧
    (s.rsp ≠ none → engineStep t = .next t)

/-- R37, R90, R93: CAP h, r and POPR, from any IDLE state with RSP empty and whatever memory: three steps, one response, the
capacity; slots and memory are as before. The program is a list of R79 lines in the model's schedule, whose three turns are the
model's own count (log entry 3), and `host.responses` is the model's record of what was popped (log entry 8). -/
def Obligations.CapProgramDeliversOneResponse : Prop :=
  ∀ (s : State) (h r : Word) (ts : List Turn), s.phase = .idle → s.rsp = none →
    ∃ s', run 3 { s with turns := .line (.issue (encode (.cap h r))) :: .line .popRsp :: ts } = .next s' ∧
      s'.phase = .idle ∧ s'.turns = ts ∧ s'.rsp = none ∧ s'.pin = s.pin ∧ s'.dout = s.dout ∧ s'.mem = s.mem ∧
      s'.row = s.row ∧ s'.col = s.col ∧ s'.mask = s.mask ∧ s'.cur = s.cur ∧
      ∃ w, s'.host.responses = w :: s.host.responses ∧ responseErr w = false ∧
        (responseValue w).toNat = h.toNat * r.toNat / 8

/-! ### The steps of ENC (41_encode.md) -/

/-- R102: ENC_FETCH holds while PIN is empty; otherwise it takes the token, an end token giving the value 0 and SRC_END,
and goes to ENC_BIT without looking at the cursor or at memory. MASK is 128 whenever the step runs.
What the taking does to the host's view is left open here. -/
def Obligations.EncFetchTakesOneToken : Prop :=
  ∀ s : State, s.phase = .encFetch →
    (Inv s → s.mask = 128) ∧
    (s.pin = none → engineStep s = .next s) ∧
    (∀ t, s.pin = some t → t.getLsbD 8 = true →
      ∃ view, engineStep s = .next { s with
        pin := none, cur := 0, srcEnd := true, phase := .encBit, host := view }) ∧
    (∀ t, s.pin = some t → t.getLsbD 8 = false →
      ∃ view, engineStep s = .next { s with
        pin := none, cur := t.extractLsb' 0 8, phase := .encBit, host := view })

/-- R103: ENC_BIT with a cell left writes one bit into the cell under the cursor and advances; with none left it raises the
error; the whole next state in both cases. -/
def Obligations.EncBitWritesOneBitAndAdvances : Prop :=
  ∀ s : State, s.phase = .encBit →
    (exhausted s = true → engineStep s = .next { s with rc := true, phase := .resp }) ∧
    (∀ v, exhausted s = false → Memory.read s.mem (cellAddress s).toNat = some v →
      engineStep s = .next { s with
        mem := if v.getLsbD 0 = decide (s.cur &&& s.mask ≠ 0) then s.mem
               else Memory.write s.mem (cellAddress s).toNat (perturb v (decide (s.cur &&& s.mask ≠ 0))),
        col := if s.col + 1 = s.r then 0 else s.col + 1,
        row := if s.col + 1 = s.r then s.row + 1 else s.row,
        mask := if s.mask = 1 then 128 else s.mask >>> 1,
        phase := if s.mask = 1 then (if s.cur = 0 then .resp else .encFetch) else .encBit })

/-- R53 with U5: a bit step that needs a cell which no memory attaches is refused by name (log entry 7). -/
def Obligations.MissingCellRefusesTheBitStep : Prop :=
  ∀ s : State, s.phase = .encBit ∨ s.phase = .decBit → exhausted s = false →
    Memory.read s.mem (cellAddress s).toNat = none → engineStep s = .refused .cellNotAttached

/-- R104, R114: the cell ENC_BIT visits ends with the parity of its bit; it keeps its value exactly when the parity matched,
and otherwise moves by 1, down above 127 and up otherwise; every other cell reads as before. -/
def Obligations.EncBitPerturbsMinimally : Prop :=
  ∀ (s s' : State) (v : Byte), s.phase = .encBit → exhausted s = false →
    Memory.read s.mem (cellAddress s).toNat = some v → engineStep s = .next s' →
    (∃ v', Memory.read s'.mem (cellAddress s).toNat = some v' ∧
      (v'.toNat % 2 = 1 ↔ s.cur &&& s.mask ≠ 0) ∧
      (v' = v ↔ (v.toNat % 2 = 1 ↔ s.cur &&& s.mask ≠ 0)) ∧
      (v' ≠ v → v.toNat > 127 → v'.toNat + 1 = v.toNat) ∧
      (v' ≠ v → v.toNat ≤ 127 → v'.toNat = v.toNat + 1)) ∧
    (∀ a, a ≠ (cellAddress s).toNat → Memory.read s'.mem a = Memory.read s.mem a)

/-- R109: ENC_DRAIN is entered from RESP exactly when an ENC has ended before its end token was taken; it holds while PIN is
empty, it drops a data token, and the end token sets SRC_END and ends the command. What the taking does to the host's view is
left open here. -/
def Obligations.EncDrainDropsTheRestOfTheFrame : Prop :=
  (∀ s s' : State, s.phase = .resp → s.rsp = none → engineStep s = .next s' →
    (s'.phase = .encDrain ↔ s.op = .enc ∧ s.srcEnd = false)) ∧
  ∀ s : State, s.phase = .encDrain →
    (s.pin = none → engineStep s = .next s) ∧
    (∀ t, s.pin = some t → t.getLsbD 8 = true →
      ∃ view, engineStep s = .next { s with pin := none, srcEnd := true, phase := .idle, host := view }) ∧
    (∀ t, s.pin = some t → t.getLsbD 8 = false →
      ∃ view, engineStep s = .next { s with pin := none, host := view })

/-- R44: a step whose slot condition fails changes nothing, in IDLE the engine has no step of its own, and the RESP step puts
{RC, RES} and goes to ENC_DRAIN for an ENC that has not seen its end token, to IDLE otherwise. The snapshot in the host's view
is the model's own (log entry 8). -/
def Obligations.RespStepAndHolds : Prop :=
  (∀ s : State, engineHolds s = true → engineStep s = .next s) ∧
  (∀ s : State, s.phase = .idle → engineStep s = .next s) ∧
  (∀ s : State, s.phase = .resp → s.rsp = none →
    (s.op = .enc → s.srcEnd = false →
      engineStep s = .next { s with
        rsp := some (BitVec.ofBool s.rc ++ s.res), phase := .encDrain,
        host := { s.host with loans := s.mem :: s.host.loans } }) ∧
    (s.op = .enc → s.srcEnd = true →
      engineStep s = .next { s with
        rsp := some (BitVec.ofBool s.rc ++ s.res), phase := .idle,
        host := { s.host with loans := s.mem :: s.host.loans } }) ∧
    (s.op ≠ .enc →
      engineStep s = .next { s with rsp := some (BitVec.ofBool s.rc ++ s.res), phase := .idle }))

/-! ### The steps of DEC (42_decode.md) -/

/-- R132, R133: DEC_BIT reads one cell, gathers its bit 0 under MASK and advances; only a whole group is tested for zero; with
no cell left it goes to DEC_END. `CUR | MASK` is CUR + MASK in every state the machine can be in. -/
def Obligations.DecBitGathersOneBit : Prop :=
  ∀ s : State, s.phase = .decBit →
    (Inv s → s.cur ||| s.mask = s.cur + s.mask) ∧
    (exhausted s = true → engineStep s = .next { s with phase := .decEnd }) ∧
    (∀ v, exhausted s = false → Memory.read s.mem (cellAddress s).toNat = some v →
      let c := if v.toNat % 2 = 1 then s.cur ||| s.mask else s.cur
      engineStep s = .next { s with
        cur := c,
        col := if s.col + 1 = s.r then 0 else s.col + 1,
        row := if s.col + 1 = s.r then s.row + 1 else s.row,
        mask := if s.mask = 1 then 128 else s.mask >>> 1,
        phase := if s.mask = 1 then (if c = 0 then .decEnd else .decEmit) else .decBit })

/-- R134: DEC_EMIT holds while DOUT is full, and otherwise puts CUR as a data token, clears CUR and goes on. -/
def Obligations.DecEmitPutsTheByte : Prop :=
  ∀ s : State, s.phase = .decEmit →
    (s.dout ≠ none → engineStep s = .next s) ∧
    (s.dout = none → engineStep s = .next { s with dout := some (0#1 ++ s.cur), cur := 0, phase := .decBit })

/-- R135: DEC_END holds while DOUT is full, and otherwise puts the END token {1, 0x00} and ends the command; nothing goes into
RSP. The snapshot in the host's view is the model's own (log entry 8). -/
def Obligations.DecEndPutsTheEndToken : Prop :=
  ∀ s : State, s.phase = .decEnd →
    (s.dout ≠ none → engineStep s = .next s) ∧
    (s.dout = none → engineStep s = .next { s with
      dout := some 0x100#9, phase := .idle,
      host := { s.host with loans := s.mem :: s.host.loans } })

/-! ### The one error (60_exceptions.md) -/

/-- R163: taking OutOfSpace. In a state the machine can be in, ENC_BIT with the cursor exhausted sets RC and goes to RESP and
does nothing else; then the response {1, 0} is put as soon as RSP is empty, and the ENC goes to ENC_DRAIN unless the end token
has been taken. At the failure ROW = H and COL = 0, or R = 0. What the response does to the host's view
is left open here. -/
def Obligations.OutOfSpaceIsTakenAndReported : Prop :=
  ∀ s : State, Inv s → s.phase = .encBit → exhausted s = true →
    (s.r = 0 ∨ (s.row = s.h ∧ s.col = 0)) ∧
    engineStep s = .next { s with rc := true, phase := .resp } ∧
    ∀ u : State, u = { s with rc := true, phase := .resp } →
      (s.rsp ≠ none → engineStep u = .next u) ∧
      (s.rsp = none → ∃ view, engineStep u = .next { u with
        rsp := some 0x10000000000000000#65, phase := if s.srcEnd = true then .idle else .encDrain, host := view })

/-- R160, R29: RC becomes 1 only by an ENC_BIT step that finds the cursor exhausted, and PHASE is then RESP. -/
def Obligations.OnlyExhaustedEncBitSetsRC : Prop :=
  ∀ s s' : State, step s = .next s' → s.rc = false → s'.rc = true →
    s.phase = .encBit ∧ exhausted s = true ∧ s'.phase = .resp ∧ s'.mem = s.mem ∧ s'.pin = s.pin

/-! ### The host's moves (10_state.md R45) -/

/-- R45: PUSH happens when PIN is empty, the pops when their slot is full, and a move that is not enabled leaves no trace. Where
the value popped goes in `host` is the model's own (log entry 8). -/
def Obligations.SlotMovesHappenWhenEnabled : Prop :=
  ∀ (s : State) (t : Token) (w : Response),
    (s.pin = none → hostMove (.push t) s = .next { s with pin := some t }) ∧
    (s.pin ≠ none → hostMove (.push t) s = .next s) ∧
    (s.dout = some t → hostMove .popDout s = .next { s with
      dout := none,
      host := { s.host with outputs := t :: s.host.outputs } }) ∧
    (s.dout = none → hostMove .popDout s = .next s) ∧
    (s.rsp = some w → hostMove .popRsp s = .next { s with
      rsp := none,
      host := { s.host with responses := w :: s.host.responses } }) ∧
    (s.rsp = none → hostMove .popRsp s = .next s)

/-- R180 with the values of R43: a RESET turn in any state, at any step of a command, gives every register and slot its value and
leaves the memory. The reset state holds the same values. -/
def Obligations.ResetGivesTheValuesOfTheTable : Prop :=
  ∀ (s : State) (ts : List Turn), s.turns = .host .reset :: ts → ∃ t, step s = .next t ∧ t.mem = s.mem ∧
    ∀ u : State, u = t ∨ u = State.reset →
      u.phase = .idle ∧ u.op = .nop ∧ u.h = 0 ∧ u.r = 0 ∧ u.row = 0 ∧ u.col = 0 ∧ u.mask = 128 ∧ u.cur = 0 ∧
      u.res = 0 ∧ u.rc = false ∧ u.srcEnd = false ∧ u.pin = none ∧ u.dout = none ∧ u.rsp = none

/-- R198 in the model's own records (log entry 8): what every list of the host's view is after any step. A list gains exactly
when the step makes something observable (a word or token popped, an ENC accepted, a token it takes, the end of a loan, a cell
the host reads), gains exactly that, at its head, and is otherwise unchanged. -/
def Obligations.HostViewRecordsWhatIsObserved : Prop :=
  ∀ s s' : State, step s = .next s' →
    s'.host.responses = (if moveMade s = some .popRsp then s.rsp.toList else []) ++ s.host.responses ∧
    s'.host.outputs = (if moveMade s = some .popDout then s.dout.toList else []) ++ s.host.outputs ∧
    s'.host.takes = (if encAccepted s then [] :: s.host.takes
      else match tokenTaken s with
        | some t => recordTake t s.host.takes
        | none => s.host.takes) ∧
    s'.host.loans = (if loanEndsHere s then [s.mem] else []) ++ s.host.loans ∧
    (∀ a, moveMade s = some (.readCell a) →
      s'.host.reads = (Memory.read s.mem a.toNat).toList ++ s.host.reads ∧ Memory.read s.mem a.toNat ≠ none) ∧
    ((∀ a, moveMade s ≠ some (.readCell a)) → s'.host.reads = s.host.reads)

/-- R52 with U4: the ownership rule. During an ENC's loan the host's access to a cell below T is given no meaning; during a
DEC's loan the host may read but not write; outside a loan, and at or above T, both are ordinary. A read of a cell that is not
attached faults, a write attaches it (log entries 5, 6 and 7); the record of a value read is the model's own (log entry 8). -/
def Obligations.OwnershipOfTheBuffer : Prop :=
  ∀ (s : State) (a : Wide) (v : Byte),
    let enc := s.phase = .encFetch ∨ s.phase = .encBit ∨ (s.phase = .resp ∧ s.op = .enc)
    let dec := s.phase = .decBit ∨ s.phase = .decEmit ∨ s.phase = .decEnd
    let inside := a.toNat < s.h.toNat * s.r.toNat
    (enc ∧ inside → hostMove (.readCell a) s = .refused .bufferOnLoan) ∧
    (¬(enc ∧ inside) → ∀ x, Memory.read s.mem a.toNat = some x →
      hostMove (.readCell a) s = .next { s with host := { s.host with reads := x :: s.host.reads } }) ∧
    (¬(enc ∧ inside) → Memory.read s.mem a.toNat = none →
      hostMove (.readCell a) s = .fault .hostReadUnattached) ∧
    ((enc ∨ dec) ∧ inside → hostMove (.writeCell a v) s = .refused .bufferOnLoan) ∧
    (¬((enc ∨ dec) ∧ inside) → ∃ t, hostMove (.writeCell a v) s = .next t ∧ t = { s with mem := t.mem } ∧
      ∀ b, Memory.read t.mem b = if b = a.toNat then some v else Memory.read s.mem b)

/-- R53, R184: a memory the host lends outside a loan holds the bytes given, from cell 0 on, and nothing else; during the loan of
an ENC or a DEC (R52) the move is refused by name. The move itself is the model's choice (log entry 5), and so is its refusal
(log entry 6). -/
def Obligations.LentMemoryHoldsTheBytes : Prop :=
  ∀ (s : State) (l : List Byte),
    let enc := s.phase = .encFetch ∨ s.phase = .encBit ∨ (s.phase = .resp ∧ s.op = .enc)
    let dec := s.phase = .decBit ∨ s.phase = .decEmit ∨ s.phase = .decEnd
    (enc ∨ dec → hostMove (.lend l) s = .refused .bufferOnLoan) ∧
    (¬(enc ∨ dec) → ∃ t, hostMove (.lend l) s = .next t ∧ t = { s with mem := t.mem } ∧ Memory.wf t.mem ∧
      ∀ a, Memory.read t.mem a = l[a]?)

/-- R79, R193: what every line of a program stands for. A number that fits its field goes into it whole, and a line with one that
does not is refused, never truncated; a program is its lines one after the other, and one refused line refuses it. That a line
becomes a `.line` turn is log entry 3; that a text is ASCII, and another character refused, is log entry 14. -/
def Obligations.AssemblerNeverTruncates : Prop :=
  (∀ h r : Nat,
    (h < 2 ^ 32 → r < 2 ^ 32 →
      (∃ w, assemble [.cap h r] = some [.line (.issue w)] ∧ decodeWord w = .cap (BitVec.ofNat 32 h) (BitVec.ofNat 32 r)) ∧
      (∃ w, assemble [.enc h r] = some [.line (.issue w)] ∧ decodeWord w = .enc (BitVec.ofNat 32 h) (BitVec.ofNat 32 r)) ∧
      (∃ w, assemble [.dec h r] = some [.line (.issue w)] ∧ decodeWord w = .dec (BitVec.ofNat 32 h) (BitVec.ofNat 32 r))) ∧
    (2 ^ 32 ≤ h ∨ 2 ^ 32 ≤ r →
      assemble [.cap h r] = none ∧ assemble [.enc h r] = none ∧ assemble [.dec h r] = none)) ∧
  (∀ d : Nat,
    (d < 256 → ∃ t, assemble [.pushByte d] = some [.line (.push t)] ∧ t.toNat = d) ∧
    (256 ≤ d → assemble [.pushByte d] = none)) ∧
  (∀ text : List Char,
    ((∀ c ∈ text, c.toNat < 128) → ∃ tokens : List Token, assemble [.pushText text] = some (tokens.map fun t => .line (.push t)) ∧
      tokens.map BitVec.toNat = text.map Char.toNat) ∧
    ((∃ c ∈ text, 128 ≤ c.toNat) → assemble [.pushText text] = none)) ∧
  assemble [.nop] = some [.line (.issue 0)] ∧ assemble [.pushEos] = some [.line (.push 0x100#9)] ∧
  assemble [.popd] = some [.line .popDout] ∧ assemble [.popr] = some [.line .popRsp] ∧
  assemble [.reset] = some [.line .reset] ∧ assemble [] = some [] ∧
  (∀ (l : Line) (rest : List Line),
    (∀ ts us, assemble [l] = some ts → assemble rest = some us → assemble (l :: rest) = some (ts ++ us)) ∧
    (assemble [l] = none ∨ assemble rest = none → assemble (l :: rest) = none))

/-! ### The whole machine -/

/-- R33: whatever agent moves, PHASE stays or follows an edge of the transition graph under the edge's condition; only RESET
leaves the graph, for IDLE. -/
def Obligations.PhaseFollowsTheTransitionGraph : Prop :=
  ∀ s s' : State, step s = .next s' →
    s'.phase = s.phase ∨ phaseEdge s s'.phase = true ∨
    (s'.phase = .idle ∧ ∃ ts, s.turns = .host .reset :: ts ∨ s.turns = .line .reset :: ts)

/-- The invariants of R46, and those they rest on, hold at reset. The second clause is the model's choice: the canonical form of
the memory and its being empty in the reset state are log entry 5, and the host's snapshots, none at reset, are log entry 8. -/
def Obligations.ResetMeetsTheInvariants : Prop :=
  Inv State.reset ∧ MemInv State.reset

/-- From EVERY state that meets them, reached or not, every step keeps the invariants (R46). -/
def Obligations.EveryStepKeepsTheInvariants : Prop :=
  ∀ s s' : State, Inv s → step s = .next s' → Inv s'

/-- Every step keeps the memory, and every snapshot of it the host holds, in canonical form (log entry 5; the snapshots are log entry 8). -/
def Obligations.EveryStepKeepsMemoryCanonical : Prop :=
  ∀ s s' : State, MemInv s → step s = .next s' → MemInv s'

/-- R46: the clauses of the rule, in every state reachable from reset under any schedule. -/
def Obligations.ReachableStatesMeetTheInvariants : Prop :=
  ∀ s : State, Reachable s →
    (s.mask = 128 ∨ s.mask = 64 ∨ s.mask = 32 ∨ s.mask = 16 ∨ s.mask = 8 ∨ s.mask = 4 ∨ s.mask = 2 ∨ s.mask = 1) ∧
    (s.phase = .encFetch → s.mask = 128) ∧
    (s.phase = .decEmit → s.mask = 128 ∧ s.cur ≠ 0) ∧
    (s.phase = .encBit ∨ s.phase = .decBit → ¬(s.row = s.h ∨ s.r = 0) → s.col < s.r ∧ s.row < s.h) ∧
    (s.op = .enc ∨ s.op = .dec → s.row ≤ s.h) ∧
    (s.phase = .decBit → ∀ i, 2 ^ i ≤ s.mask.toNat → s.cur.getLsbD i = false) ∧
    (s.rc = true → s.op = .enc ∧ (s.phase = .resp ∨ s.phase = .encDrain ∨ s.phase = .idle))

/-- R65, R51: in a state the machine can be in, the cell a bit step uses lies below T and its address is not wrapped; no engine
step changes a cell at or above T, and the issue of CAP or NOP changes no cell. -/
def Obligations.EngineStaysInsideTheBuffer : Prop :=
  (∀ s : State, Inv s → (s.phase = .encBit ∨ s.phase = .decBit) → exhausted s = false →
    (cellAddress s).toNat = s.row.toNat * s.r.toNat + s.col.toNat ∧
    (cellAddress s).toNat < s.h.toNat * s.r.toNat) ∧
  (∀ s s' : State, Inv s → engineStep s = .next s' →
    ∀ a, s.h.toNat * s.r.toNat ≤ a → Memory.read s'.mem a = Memory.read s.mem a) ∧
  (∀ (h r : Word) (s s' : State), (exec (.cap h r) s = .next s' ∨ exec (.nop h r) s = .next s') → s'.mem = s.mem)

/-- R32: where the cursor is inside the buffer `advance_pos` moves it to exactly the next cell without overflow, and
`exhausted` says exactly that the position has reached T; the mask advance runs through the weights. -/
def Obligations.CursorVisitsCellsInOrder : Prop :=
  (∀ s : State, s.col < s.r → s.row < s.h →
    (s.col + 1 = s.r → s.advancePos = { s with col := 0, row := s.row + 1 }) ∧
    (s.col + 1 ≠ s.r → s.advancePos = { s with col := s.col + 1 }) ∧
    (s.advancePos.row.toNat * s.r.toNat + s.advancePos.col.toNat = s.row.toNat * s.r.toNat + s.col.toNat + 1) ∧
    (exhausted s.advancePos = true ∨ s.advancePos.col < s.r) ∧ s.advancePos.row ≤ s.h) ∧
  (∀ s : State, s.row ≤ s.h → (exhausted s = false → s.col < s.r) →
    (exhausted s = true ↔ s.h.toNat * s.r.toNat ≤ s.row.toNat * s.r.toNat + s.col.toNat)) ∧
  (∀ s : State, s.advanceMask = { s with mask := if s.mask = 1 then 128 else s.mask >>> 1 })

/-- R56, R62, R139: no engine step outside ENC_BIT changes the memory; in particular none after an ENC's response or in a DEC. -/
def Obligations.OnlyEncBitWritesCells : Prop :=
  ∀ s s' : State, engineStep s = .next s' → s.phase ≠ .encBit → s'.mem = s.mem

/-- R35, R36, R37: the engine empties PIN only in ENC_FETCH and ENC_DRAIN and never fills it, fills DOUT only in DEC_EMIT and
DEC_END, fills RSP only in RESP, and never empties either; it never writes H, R or OP (R21 to R23). -/
def Obligations.EngineMovesSlotsOnlyWhereAllowed : Prop :=
  ∀ s s' : State, engineStep s = .next s' →
    (s'.pin = s.pin ∨ (s'.pin = none ∧ (s.phase = .encFetch ∨ s.phase = .encDrain))) ∧
    (s'.dout = s.dout ∨ (s.dout = none ∧ (s.phase = .decEmit ∨ s.phase = .decEnd))) ∧
    (s'.rsp = s.rsp ∨ (s.rsp = none ∧ s.phase = .resp)) ∧
    s'.h = s.h ∧ s'.r = s.r ∧ s'.op = s.op ∧ s'.turns = s.turns

/-- R53, R65, R137: with the cells of the buffer attached the engine never stops, in any phase. -/
def Obligations.EngineNeverStopsOnAnAttachedBuffer : Prop :=
  ∀ s : State, Inv s → covers s.mem s.h s.r → ∃ s', engineStep s = .next s'

/-- R191, R183: an engine that holds (or is in IDLE) waits for ever, whatever number of turns it is given, until the host moves;
all state is kept but the turns used up (log entry 2). -/
def Obligations.HoldingEngineWaitsForTheHost : Prop :=
  ∀ (s : State), engineHolds s = true → (∀ t ∈ s.turns, t = .engine) →
    ∀ n, run n s = .next { s with turns := s.turns.drop n }

/-- R79 in the model's schedule (log entry 3): at a line the engine steps while it can; when it is in IDLE or holds, the move
is made if it is enabled; if neither can move, the line waits. -/
def Obligations.ProgramLineWaitsForItsMove : Prop :=
  ∀ (s : State) (m : HostMove) (ts : List Turn), s.turns = .line m :: ts →
    (engineHolds s = false → step s = engineStep s) ∧
    (engineHolds s = true → moveEnabled m s = true → step s = hostMove m { s with turns := ts }) ∧
    (engineHolds s = true → moveEnabled m s = false → step s = .next s)

/-- R190: a token left in PIN survives the issue of an ENC and is taken as the first token of its frame; the
list of tokens taken is the model's record (log entry 8). -/
def Obligations.StrayTokenJoinsTheNextFrame : Prop :=
  ∀ (s : State) (t : Token) (h r : Word), s.phase = .idle → s.pin = some t →
    ∃ u v, exec (.enc h r) s = .next u ∧ u.pin = some t ∧ engineStep u = .next v ∧ v.pin = none ∧ v.phase = .encBit ∧
      v.cur = (if t.getLsbD 8 then 0 else t.extractLsb' 0 8) ∧ v.host.takes = [t] :: s.host.takes

/-! ### The whole effects of ENC and DEC -/

/-- R110 with the bound of R196: ENC h, r, the whole frame (any data bytes, any end token), POPR, from any IDLE state with PIN
and RSP empty in which the cells ENC visits are attached. The command ends within the bound; the visited cells carry the wire
bits and all others are untouched; the response is OK(0) or OOS as the wire bits fit or not; the whole frame is taken. The program is a list of R79 lines (log entry
3) and `host` holds the observations of R198 (log entry 8). -/
def Obligations.EncodeHasTheWholeEffectOfTheRule : Prop :=
  ∀ (s : State) (h r : Word) (d : List Byte) (e : Token) (ts : List Turn),
    s.phase = .idle → s.pin = none → s.rsp = none → e.getLsbD 8 = true →
    let total := h.toNat * r.toNat
    let bits := 8 * ((logicalPayload d).length + 1)
    (∀ a, a < min bits total → (Memory.read s.mem a).isSome = true) →
    ∃ n s', n ≤ 2 * (d.length + 1) + min bits total + 4 ∧
      run n { s with turns := encodeProgram h r (payloadFrame d e) ++ ts } = .next s' ∧
      s'.phase = .idle ∧ s'.pin = none ∧ s'.rsp = none ∧ s'.dout = s.dout ∧ s'.turns = ts ∧
      (∀ a, Memory.read s'.mem a = (Memory.read s.mem a).map fun v =>
        if a < min bits total then perturb v (((logicalPayload d ++ [0]).flatMap bits8).getD a false) else v) ∧
      s'.host.responses = responseWord (decide (total < bits)) 0 :: s.host.responses ∧
      s'.host.takes = (payloadFrame d e).reverse :: s.host.takes ∧
      s'.host.outputs = s.host.outputs

/-- R136 with the bound of R196: DEC h, r and as many POPDs as tokens come, from any IDLE state with DOUT empty in which the
cells DEC reads are attached (no other cell is needed). The groups before the first zero group come out in order, then END; no
cell and neither other slot changes. Lines and observations as in the statement before. -/
def Obligations.DecodeHasTheWholeEffectOfTheRule : Prop :=
  ∀ (s : State) (h r : Word) (ts : List Turn), s.phase = .idle → s.dout = none →
    let total := h.toNat * r.toNat
    let bytes := decodedBytes s.mem total
    (∀ a, a < (if bytes.length < total / 8 then 8 * (bytes.length + 1) else total) →
      (Memory.read s.mem a).isSome = true) →
    ∃ n s', n ≤ total + 2 * bytes.length + 4 ∧
      run n { s with turns := decodeProgram h r (bytes.length + 1) ++ ts } = .next s' ∧
      s'.phase = .idle ∧ s'.dout = none ∧ s'.pin = s.pin ∧ s'.rsp = s.rsp ∧ s'.turns = ts ∧ s'.mem = s.mem ∧
      s'.host.outputs = endToken :: ((bytes.map dataToken).reverse ++ s.host.outputs) ∧
      s'.host.responses = s.host.responses

/-- R141: the round trip, for every payload, buffer content, and second geometry with room for the wire bytes: ENC answers
OK(0), and DEC then gives back the payload up to its first zero byte (the whole payload when it has none).
Lines and observations as in the two statements before. -/
def Obligations.DecodeAfterEncodeGivesThePayload : Prop :=
  ∀ (s : State) (h r h' r' : Word) (d : List Byte) (e : Token) (ts : List Turn),
    s.phase = .idle → s.pin = none → s.rsp = none → s.dout = none → e.getLsbD 8 = true →
    covers s.mem h r → covers s.mem h' r' →
    8 * ((logicalPayload d).length + 1) ≤ h.toNat * r.toNat →
    8 * ((logicalPayload d).length + 1) ≤ h'.toNat * r'.toNat →
    ((∀ b ∈ d, b ≠ 0) → logicalPayload d = d) ∧
    ∃ n s', run n (s.setTurns (encodeProgram h r (payloadFrame d e) ++
        decodeProgram h' r' ((logicalPayload d).length + 1) ++ ts)) = .next s' ∧
      s'.phase = .idle ∧ s'.turns = ts ∧
      s'.host.responses = responseWord false 0 :: s.host.responses ∧
      s'.host.outputs = endToken :: (((logicalPayload d).map dataToken).reverse ++ s.host.outputs)

/-- R115, for an ENC run by the program of R79 lines above: it succeeds exactly when its payload is shorter than the capacity CAP
reports for the same operands. The schedule of lines is log entry 3, and the response is read in `host` (log entry 8). -/
def Obligations.EncodeSucceedsExactlyBelowCapacity : Prop :=
  ∀ (s : State) (h r : Word) (d : List Byte) (e : Token),
    s.phase = .idle → s.pin = none → s.rsp = none → e.getLsbD 8 = true → covers s.mem h r →
    ∃ n s' w, run n { s with turns := encodeProgram h r (payloadFrame d e) } = .next s' ∧ s'.turns = [] ∧
      s'.phase = .idle ∧ s'.host.responses = w :: s.host.responses ∧
      (responseErr w = false ↔ (logicalPayload d).length < (capacity h r).toNat)

/-- R114 (f), for an ENC run by the program of R79 lines above: running the same program again on its own result changes no cell.
The schedule of lines is log entry 3. -/
def Obligations.EncodingAgainChangesNoCell : Prop :=
  ∀ (s s' s'' : State) (h r : Word) (d : List Byte) (e : Token) (n k : Nat),
    s.phase = .idle → s.pin = none → s.rsp = none → e.getLsbD 8 = true → covers s.mem h r →
    run n { s with turns := encodeProgram h r (payloadFrame d e) } = .next s' → s'.turns = [] →
    run k { s' with turns := encodeProgram h r (payloadFrame d e) } = .next s'' → s''.turns = [] →
    ∀ a, Memory.read s''.mem a = Memory.read s'.mem a

/-- R164, R181: while an ENC has the buffer, under EVERY schedule without RESET and whatever else the host does, the cells the
cursor has passed carry the wire bits of the tokens taken so far and the rest of the buffer is untouched. So a RESET, which
changes no cell, leaves a prefix of the wire bits. The tokens taken and the loans ended are read in `host` (log entry 8). -/
def Obligations.BufferDuringEncodeHoldsAPrefix : Prop :=
  ∀ (s t s' : State) (h r : Word) (n : Nat), s.phase = .idle → covers s.mem h r → NoReset s.turns →
    exec (.enc h r) s = .next t → run n t = .next s' → s'.host.loans = s.host.loans →
    ∃ tokens, s'.host.takes = tokens :: s.host.takes ∧
      EncodedCells s.mem s'.mem (h.toNat * r.toNat)
        ((wireBits tokens.reverse).take (s'.row.toNat * r.toNat + s'.col.toNat))

/-- R110, R197: the effect of an ENC under EVERY schedule without RESET. When its loan has ended, the memory at that moment is
the old one with the wire bits of the tokens it took, and its response, the first after those there were, says whether the wire
bits fit. Tokens, loans and responses are read in `host` (log entry 8). -/
def Obligations.EncodeIsIndependentOfTheSchedule : Prop :=
  ∀ (s t s' : State) (h r : Word) (n : Nat) (m : Memory) (tokens : List Token),
    s.phase = .idle → covers s.mem h r → NoReset s.turns →
    exec (.enc h r) s = .next t → run n t = .next s' →
    s'.host.loans = m :: s.host.loans → s'.host.takes = tokens :: s.host.takes →
    EncodedCells s.mem m (h.toNat * r.toNat) (wireBits tokens.reverse) ∧
    ∃ later, responsesSoFar s' =
      later ++ responseWord (decide (h.toNat * r.toNat < 8 * (wireBytes tokens.reverse).length)) 0 :: responsesSoFar s

/-- R136, R197: the effect of a DEC under EVERY schedule without RESET. When its loan has ended, the buffer's cells are as they
were, and the tokens put after those there were are the groups before the first zero group and then END. Loans and tokens are
read in `host` (log entry 8). -/
def Obligations.DecodeIsIndependentOfTheSchedule : Prop :=
  ∀ (s t s' : State) (h r : Word) (n : Nat) (m : Memory),
    s.phase = .idle → covers s.mem h r → NoReset s.turns →
    exec (.dec h r) s = .next t → run n t = .next s' → s'.host.loans = m :: s.host.loans →
    SameCells m s.mem (h.toNat * r.toNat) ∧
    ∃ later, outputsSoFar s' =
      later ++ endToken :: (((decodedBytes s.mem (h.toNat * r.toNat)).map dataToken).reverse ++ outputsSoFar s)

/-! ### The end of an execution (70_reset_and_hazards.md R198) -/

/-- R198: a state is final exactly when it is IDLE with every slot empty and the host makes no further move, however far the
run goes on; a move that is not enabled does not happen (R45). From a final state no number of steps changes anything but the
turns used up, and it stays final. The turns are the model's schedule (log entry 2). -/
def Obligations.FinalStateIsOver : Prop :=
  ∀ s : State,
    (Final s ↔ s.phase = .idle ∧ s.pin = none ∧ s.dout = none ∧ s.rsp = none ∧
      ∀ n s', run n s = .next s' → moveMade s' = none) ∧
    (Final s → ∀ n, ∃ ts, run n s = .next { s with turns := ts } ∧ Final { s with turns := ts })
end

