-- ==== Sys2Proof/Config.lean ====
section
/-! DEFINITION. What an implementation of LSBC fixes and the spec leaves open (00_scope.md R7).
The only open parameter is PB_BASE; the spec leaves no value of any instruction open, so there is no free value. -/

namespace Sys2Proof.Config

/-- PB_BASE: where the platform places cell address 0 (R7, R51, D11). It has no value here, so no proof can rest on one.
No rule reads it, and neither does the machine. -/
opaque pbBase : Nat

/-- The platform's address of the cell with cell address `a` (R51). Nothing in the machine calls it. -/
def platformAddress (a : Nat) : Nat := pbBase + a

end Sys2Proof.Config
end

