-- ==== Sys2Proof/Laws/Encoding.lean ====
section
/-! SUPPORT. The fields of a CMD66 word (30_encoding.md R70). -/

namespace Sys2Proof

theorem opField_commandWord (op : Opcode) (h r : Word) : opField (commandWord op h r) = op.bits := by
  apply BitVec.eq_of_getLsbD_eq
  intro i hi
  rw [opField, BitVec.getLsbD_extractLsb', commandWord, BitVec.getLsbD_append, BitVec.getLsbD_append,
    if_neg (by omega), if_neg (by omega)]
  have : 64 + i - 32 - 32 = i := by omega
  simp [hi, this]

theorem hField_commandWord (op : Opcode) (h r : Word) : hField (commandWord op h r) = h := by
  apply BitVec.eq_of_getLsbD_eq
  intro i hi
  rw [hField, BitVec.getLsbD_extractLsb', commandWord, BitVec.getLsbD_append, BitVec.getLsbD_append,
    if_neg (by omega), if_pos (by omega)]
  have : 32 + i - 32 = i := by omega
  simp [hi, this]

theorem rField_commandWord (op : Opcode) (h r : Word) : rField (commandWord op h r) = r := by
  apply BitVec.eq_of_getLsbD_eq
  intro i hi
  rw [rField, BitVec.getLsbD_extractLsb', commandWord, BitVec.getLsbD_append, if_pos (by omega)]
  simp [hi]

/-- The opcode of an opcode's bits. -/
theorem opcodeOf_bits (op : Opcode) : opcodeOf op.bits = op := by
  cases op <;> decide

end Sys2Proof
end

