-- ==== Sys2Proof/Laws/Memory.lean ====
section
/-! SUPPORT. The laws of the pixel-buffer memory: read after write, frame, canonical form. -/

namespace Sys2Proof.Machine

@[simp] theorem Memory.read_nil (a : Nat) : Memory.read [] a = none := rfl

/-- A read after a write gives the value written at that address and the old value everywhere else. -/
theorem Memory.read_write (m : Memory) (a b : Nat) (v : Byte) :
    Memory.read (Memory.write m a v) b = if a = b then some v else Memory.read m b := by
  induction m with
  | nil => rfl
  | cons c rest ih =>
    obtain ⟨k, w⟩ := c
    simp only [Memory.write]
    split
    · simp only [Memory.read]
    · split
      · rename_i _ hk
        subst hk
        simp only [Memory.read]
        split <;> rfl
      · rename_i _ hk
        simp only [Memory.read, ih]
        by_cases hkb : k = b
        · subst hkb
          simp [hk]
        · simp [hkb]

@[simp] theorem Memory.read_write_same (m : Memory) (a : Nat) (v : Byte) :
    Memory.read (Memory.write m a v) a = some v := by
  simp [Memory.read_write]

theorem Memory.read_write_other (m : Memory) {a b : Nat} (v : Byte) (h : a ≠ b) :
    Memory.read (Memory.write m a v) b = Memory.read m b := by
  simp [Memory.read_write, h]

/-- The addresses listed after a write are those listed before and the one written. -/
theorem Memory.mem_write {m : Memory} {a : Nat} {v : Byte} {c : Host.Cell} (h : c ∈ Memory.write m a v) :
    c.1 = a ∨ c ∈ m := by
  induction m with
  | nil => simp [Memory.write] at h; simp [h]
  | cons d rest ih =>
    obtain ⟨k, w⟩ := d
    simp only [Memory.write] at h
    split at h
    · rcases List.mem_cons.1 h with rfl | h
      · exact .inl rfl
      · exact .inr h
    · split at h
      · rcases List.mem_cons.1 h with rfl | h
        · exact .inl rfl
        · exact .inr (List.mem_cons_of_mem _ h)
      · rcases List.mem_cons.1 h with rfl | h
        · exact .inr List.mem_cons_self
        · exact (ih h).imp_right (List.mem_cons_of_mem _)

/-- A write keeps the canonical form. -/
theorem Memory.write_wf {m : Memory} (h : Memory.wf m) (a : Nat) (v : Byte) : Memory.wf (Memory.write m a v) := by
  induction m with
  | nil => simp [Memory.write, Memory.wf]
  | cons c rest ih =>
    obtain ⟨k, w⟩ := c
    obtain ⟨hk, hrest⟩ := List.pairwise_cons.1 h
    simp only [Memory.write]
    split
    · rename_i hak
      refine List.pairwise_cons.2 ⟨fun d hd => ?_, h⟩
      rcases List.mem_cons.1 hd with rfl | hd
      · exact hak
      · exact Nat.lt_trans hak (hk d hd)
    · split
      · rename_i _ hak
        subst hak
        exact List.pairwise_cons.2 ⟨hk, hrest⟩
      · refine List.pairwise_cons.2 ⟨fun d hd => ?_, ih hrest⟩
        rcases Memory.mem_write hd with hd | hd
        · show k < d.1
          omega
        · exact hk d hd

theorem Memory.le_of_mem_ofBytes {l : List Byte} {a : Nat} {c : Host.Cell} (h : c ∈ Memory.ofBytes a l) : a ≤ c.1 := by
  induction l generalizing a with
  | nil => simp [Memory.ofBytes] at h
  | cons v rest ih =>
    rcases List.mem_cons.1 h with rfl | h
    · exact Nat.le_refl _
    · exact Nat.le_of_succ_le (ih h)

/-- A memory made of bytes is in canonical form. -/
theorem Memory.ofBytes_wf (l : List Byte) (a : Nat) : Memory.wf (Memory.ofBytes a l) := by
  induction l generalizing a with
  | nil => exact List.Pairwise.nil
  | cons v rest ih => exact List.pairwise_cons.2 ⟨fun d hd => Memory.le_of_mem_ofBytes hd, ih (a + 1)⟩

/-- Cell `a + i` of a memory made of bytes holds byte `i`. -/
theorem Memory.read_ofBytes (l : List Byte) (a i : Nat) : Memory.read (Memory.ofBytes a l) (a + i) = l[i]? := by
  induction l generalizing a i with
  | nil => rfl
  | cons v rest ih =>
    cases i with
    | zero => simp [Memory.ofBytes, Memory.read]
    | succ i =>
      have h := ih (a + 1) i
      simp only [Memory.ofBytes, Memory.read]
      rw [if_neg (by omega), show a + (i + 1) = a + 1 + i by omega, h]
      rfl

/-- Two memories in canonical form that read the same everywhere are equal. -/
theorem Memory.ext_of_wf {m n : Memory} (hm : Memory.wf m) (hn : Memory.wf n)
    (h : ∀ a, Memory.read m a = Memory.read n a) : m = n := by
  have unlisted : ∀ {l : Memory} {a : Nat}, (∀ c ∈ l, a < c.1) → Memory.read l a = none := by
    intro l a hl
    induction l with
    | nil => rfl
    | cons c rest ih =>
      have := hl c List.mem_cons_self
      simp only [Memory.read]
      rw [if_neg (by omega)]
      exact ih fun d hd => hl d (List.mem_cons_of_mem _ hd)
  induction m generalizing n with
  | nil =>
    cases n with
    | nil => rfl
    | cons c rest =>
      have := h c.1
      simp [Memory.read] at this
  | cons c rest ih =>
    obtain ⟨k, v⟩ := c
    obtain ⟨hk, hrest⟩ := List.pairwise_cons.1 hm
    cases n with
    | nil =>
      have := h k
      simp [Memory.read] at this
    | cons d rest' =>
      obtain ⟨k', v'⟩ := d
      obtain ⟨hk', hrest'⟩ := List.pairwise_cons.1 hn
      have hkk : k = k' := by
        rcases Nat.lt_trichotomy k k' with hlt | heq | hlt
        · have h1 := h k
          rw [unlisted (l := (k', v') :: rest') (a := k)] at h1
          · simp [Memory.read] at h1
          · intro e he
            rcases List.mem_cons.1 he with rfl | he
            · exact hlt
            · exact Nat.lt_trans hlt (hk' e he)
        · exact heq
        · have h1 := h k'
          rw [unlisted (l := (k, v) :: rest) (a := k')] at h1
          · simp [Memory.read] at h1
          · intro e he
            rcases List.mem_cons.1 he with rfl | he
            · exact hlt
            · exact Nat.lt_trans hlt (hk e he)
      subst hkk
      have hv : v = v' := by
        have := h k
        simpa [Memory.read] using this
      subst hv
      have hr : rest = rest' := by
        refine ih hrest hrest' fun a => ?_
        by_cases ha : k = a
        · subst ha
          rw [unlisted hk, unlisted hk']
        · have := h a
          simpa [Memory.read, ha] using this
      rw [hr]

end Sys2Proof.Machine
end

