-- ==== Sys2Proof/Laws/State.lean ====
section
/-! SUPPORT. One lemma per field per named update of the state (Machine/Ops.lean), so that no proof unfolds an update. -/

namespace Sys2Proof.Machine

variable (s : State)

/-! ### setPhase -/

@[simp] theorem setPhase_op (p : Phase) : (s.setPhase p).op = s.op := rfl
@[simp] theorem setPhase_h (p : Phase) : (s.setPhase p).h = s.h := rfl
@[simp] theorem setPhase_r (p : Phase) : (s.setPhase p).r = s.r := rfl
@[simp] theorem setPhase_row (p : Phase) : (s.setPhase p).row = s.row := rfl
@[simp] theorem setPhase_col (p : Phase) : (s.setPhase p).col = s.col := rfl
@[simp] theorem setPhase_mask (p : Phase) : (s.setPhase p).mask = s.mask := rfl
@[simp] theorem setPhase_cur (p : Phase) : (s.setPhase p).cur = s.cur := rfl
@[simp] theorem setPhase_res (p : Phase) : (s.setPhase p).res = s.res := rfl
@[simp] theorem setPhase_rc (p : Phase) : (s.setPhase p).rc = s.rc := rfl
@[simp] theorem setPhase_srcEnd (p : Phase) : (s.setPhase p).srcEnd = s.srcEnd := rfl
@[simp] theorem setPhase_phase (p : Phase) : (s.setPhase p).phase = p := rfl
@[simp] theorem setPhase_pin (p : Phase) : (s.setPhase p).pin = s.pin := rfl
@[simp] theorem setPhase_dout (p : Phase) : (s.setPhase p).dout = s.dout := rfl
@[simp] theorem setPhase_rsp (p : Phase) : (s.setPhase p).rsp = s.rsp := rfl
@[simp] theorem setPhase_mem (p : Phase) : (s.setPhase p).mem = s.mem := rfl
@[simp] theorem setPhase_turns (p : Phase) : (s.setPhase p).turns = s.turns := rfl
@[simp] theorem setPhase_host (p : Phase) : (s.setPhase p).host = s.host := rfl

/-! ### setCur -/

@[simp] theorem setCur_op (b : Byte) : (s.setCur b).op = s.op := rfl
@[simp] theorem setCur_h (b : Byte) : (s.setCur b).h = s.h := rfl
@[simp] theorem setCur_r (b : Byte) : (s.setCur b).r = s.r := rfl
@[simp] theorem setCur_row (b : Byte) : (s.setCur b).row = s.row := rfl
@[simp] theorem setCur_col (b : Byte) : (s.setCur b).col = s.col := rfl
@[simp] theorem setCur_mask (b : Byte) : (s.setCur b).mask = s.mask := rfl
@[simp] theorem setCur_cur (b : Byte) : (s.setCur b).cur = b := rfl
@[simp] theorem setCur_res (b : Byte) : (s.setCur b).res = s.res := rfl
@[simp] theorem setCur_rc (b : Byte) : (s.setCur b).rc = s.rc := rfl
@[simp] theorem setCur_srcEnd (b : Byte) : (s.setCur b).srcEnd = s.srcEnd := rfl
@[simp] theorem setCur_phase (b : Byte) : (s.setCur b).phase = s.phase := rfl
@[simp] theorem setCur_pin (b : Byte) : (s.setCur b).pin = s.pin := rfl
@[simp] theorem setCur_dout (b : Byte) : (s.setCur b).dout = s.dout := rfl
@[simp] theorem setCur_rsp (b : Byte) : (s.setCur b).rsp = s.rsp := rfl
@[simp] theorem setCur_mem (b : Byte) : (s.setCur b).mem = s.mem := rfl
@[simp] theorem setCur_turns (b : Byte) : (s.setCur b).turns = s.turns := rfl
@[simp] theorem setCur_host (b : Byte) : (s.setCur b).host = s.host := rfl

/-! ### setRes -/

@[simp] theorem setRes_op (v : Wide) : (s.setRes v).op = s.op := rfl
@[simp] theorem setRes_h (v : Wide) : (s.setRes v).h = s.h := rfl
@[simp] theorem setRes_r (v : Wide) : (s.setRes v).r = s.r := rfl
@[simp] theorem setRes_row (v : Wide) : (s.setRes v).row = s.row := rfl
@[simp] theorem setRes_col (v : Wide) : (s.setRes v).col = s.col := rfl
@[simp] theorem setRes_mask (v : Wide) : (s.setRes v).mask = s.mask := rfl
@[simp] theorem setRes_cur (v : Wide) : (s.setRes v).cur = s.cur := rfl
@[simp] theorem setRes_res (v : Wide) : (s.setRes v).res = v := rfl
@[simp] theorem setRes_rc (v : Wide) : (s.setRes v).rc = s.rc := rfl
@[simp] theorem setRes_srcEnd (v : Wide) : (s.setRes v).srcEnd = s.srcEnd := rfl
@[simp] theorem setRes_phase (v : Wide) : (s.setRes v).phase = s.phase := rfl
@[simp] theorem setRes_pin (v : Wide) : (s.setRes v).pin = s.pin := rfl
@[simp] theorem setRes_dout (v : Wide) : (s.setRes v).dout = s.dout := rfl
@[simp] theorem setRes_rsp (v : Wide) : (s.setRes v).rsp = s.rsp := rfl
@[simp] theorem setRes_mem (v : Wide) : (s.setRes v).mem = s.mem := rfl
@[simp] theorem setRes_turns (v : Wide) : (s.setRes v).turns = s.turns := rfl
@[simp] theorem setRes_host (v : Wide) : (s.setRes v).host = s.host := rfl

/-! ### latch -/

@[simp] theorem latch_op (o : Opcode) (h r : Word) : (s.latch o h r).op = o := rfl
@[simp] theorem latch_h (o : Opcode) (h r : Word) : (s.latch o h r).h = h := rfl
@[simp] theorem latch_r (o : Opcode) (h r : Word) : (s.latch o h r).r = r := rfl
@[simp] theorem latch_row (o : Opcode) (h r : Word) : (s.latch o h r).row = s.row := rfl
@[simp] theorem latch_col (o : Opcode) (h r : Word) : (s.latch o h r).col = s.col := rfl
@[simp] theorem latch_mask (o : Opcode) (h r : Word) : (s.latch o h r).mask = s.mask := rfl
@[simp] theorem latch_cur (o : Opcode) (h r : Word) : (s.latch o h r).cur = s.cur := rfl
@[simp] theorem latch_res (o : Opcode) (h r : Word) : (s.latch o h r).res = s.res := rfl
@[simp] theorem latch_rc (o : Opcode) (h r : Word) : (s.latch o h r).rc = false := rfl
@[simp] theorem latch_srcEnd (o : Opcode) (h r : Word) : (s.latch o h r).srcEnd = false := rfl
@[simp] theorem latch_phase (o : Opcode) (h r : Word) : (s.latch o h r).phase = s.phase := rfl
@[simp] theorem latch_pin (o : Opcode) (h r : Word) : (s.latch o h r).pin = s.pin := rfl
@[simp] theorem latch_dout (o : Opcode) (h r : Word) : (s.latch o h r).dout = s.dout := rfl
@[simp] theorem latch_rsp (o : Opcode) (h r : Word) : (s.latch o h r).rsp = s.rsp := rfl
@[simp] theorem latch_mem (o : Opcode) (h r : Word) : (s.latch o h r).mem = s.mem := rfl
@[simp] theorem latch_turns (o : Opcode) (h r : Word) : (s.latch o h r).turns = s.turns := rfl
@[simp] theorem latch_host (o : Opcode) (h r : Word) : (s.latch o h r).host = s.host := rfl

/-! ### freshCursor -/

@[simp] theorem freshCursor_op : s.freshCursor.op = s.op := rfl
@[simp] theorem freshCursor_h : s.freshCursor.h = s.h := rfl
@[simp] theorem freshCursor_r : s.freshCursor.r = s.r := rfl
@[simp] theorem freshCursor_row : s.freshCursor.row = 0 := rfl
@[simp] theorem freshCursor_col : s.freshCursor.col = 0 := rfl
@[simp] theorem freshCursor_mask : s.freshCursor.mask = 128 := rfl
@[simp] theorem freshCursor_cur : s.freshCursor.cur = s.cur := rfl
@[simp] theorem freshCursor_res : s.freshCursor.res = s.res := rfl
@[simp] theorem freshCursor_rc : s.freshCursor.rc = s.rc := rfl
@[simp] theorem freshCursor_srcEnd : s.freshCursor.srcEnd = s.srcEnd := rfl
@[simp] theorem freshCursor_phase : s.freshCursor.phase = s.phase := rfl
@[simp] theorem freshCursor_pin : s.freshCursor.pin = s.pin := rfl
@[simp] theorem freshCursor_dout : s.freshCursor.dout = s.dout := rfl
@[simp] theorem freshCursor_rsp : s.freshCursor.rsp = s.rsp := rfl
@[simp] theorem freshCursor_mem : s.freshCursor.mem = s.mem := rfl
@[simp] theorem freshCursor_turns : s.freshCursor.turns = s.turns := rfl
@[simp] theorem freshCursor_host : s.freshCursor.host = s.host := rfl

/-! ### advancePos -/

@[simp] theorem advancePos_op : s.advancePos.op = s.op := rfl
@[simp] theorem advancePos_h : s.advancePos.h = s.h := rfl
@[simp] theorem advancePos_r : s.advancePos.r = s.r := rfl
@[simp] theorem advancePos_row : s.advancePos.row = nextRow s := rfl
@[simp] theorem advancePos_col : s.advancePos.col = nextCol s := rfl
@[simp] theorem advancePos_mask : s.advancePos.mask = s.mask := rfl
@[simp] theorem advancePos_cur : s.advancePos.cur = s.cur := rfl
@[simp] theorem advancePos_res : s.advancePos.res = s.res := rfl
@[simp] theorem advancePos_rc : s.advancePos.rc = s.rc := rfl
@[simp] theorem advancePos_srcEnd : s.advancePos.srcEnd = s.srcEnd := rfl
@[simp] theorem advancePos_phase : s.advancePos.phase = s.phase := rfl
@[simp] theorem advancePos_pin : s.advancePos.pin = s.pin := rfl
@[simp] theorem advancePos_dout : s.advancePos.dout = s.dout := rfl
@[simp] theorem advancePos_rsp : s.advancePos.rsp = s.rsp := rfl
@[simp] theorem advancePos_mem : s.advancePos.mem = s.mem := rfl
@[simp] theorem advancePos_turns : s.advancePos.turns = s.turns := rfl
@[simp] theorem advancePos_host : s.advancePos.host = s.host := rfl

/-! ### advanceMask -/

@[simp] theorem advanceMask_op : s.advanceMask.op = s.op := rfl
@[simp] theorem advanceMask_h : s.advanceMask.h = s.h := rfl
@[simp] theorem advanceMask_r : s.advanceMask.r = s.r := rfl
@[simp] theorem advanceMask_row : s.advanceMask.row = s.row := rfl
@[simp] theorem advanceMask_col : s.advanceMask.col = s.col := rfl
@[simp] theorem advanceMask_mask : s.advanceMask.mask = nextMask s.mask := rfl
@[simp] theorem advanceMask_cur : s.advanceMask.cur = s.cur := rfl
@[simp] theorem advanceMask_res : s.advanceMask.res = s.res := rfl
@[simp] theorem advanceMask_rc : s.advanceMask.rc = s.rc := rfl
@[simp] theorem advanceMask_srcEnd : s.advanceMask.srcEnd = s.srcEnd := rfl
@[simp] theorem advanceMask_phase : s.advanceMask.phase = s.phase := rfl
@[simp] theorem advanceMask_pin : s.advanceMask.pin = s.pin := rfl
@[simp] theorem advanceMask_dout : s.advanceMask.dout = s.dout := rfl
@[simp] theorem advanceMask_rsp : s.advanceMask.rsp = s.rsp := rfl
@[simp] theorem advanceMask_mem : s.advanceMask.mem = s.mem := rfl
@[simp] theorem advanceMask_turns : s.advanceMask.turns = s.turns := rfl
@[simp] theorem advanceMask_host : s.advanceMask.host = s.host := rfl

/-! ### storeCell -/

@[simp] theorem storeCell_op (a : Nat) (v : Byte) : (s.storeCell a v).op = s.op := rfl
@[simp] theorem storeCell_h (a : Nat) (v : Byte) : (s.storeCell a v).h = s.h := rfl
@[simp] theorem storeCell_r (a : Nat) (v : Byte) : (s.storeCell a v).r = s.r := rfl
@[simp] theorem storeCell_row (a : Nat) (v : Byte) : (s.storeCell a v).row = s.row := rfl
@[simp] theorem storeCell_col (a : Nat) (v : Byte) : (s.storeCell a v).col = s.col := rfl
@[simp] theorem storeCell_mask (a : Nat) (v : Byte) : (s.storeCell a v).mask = s.mask := rfl
@[simp] theorem storeCell_cur (a : Nat) (v : Byte) : (s.storeCell a v).cur = s.cur := rfl
@[simp] theorem storeCell_res (a : Nat) (v : Byte) : (s.storeCell a v).res = s.res := rfl
@[simp] theorem storeCell_rc (a : Nat) (v : Byte) : (s.storeCell a v).rc = s.rc := rfl
@[simp] theorem storeCell_srcEnd (a : Nat) (v : Byte) : (s.storeCell a v).srcEnd = s.srcEnd := rfl
@[simp] theorem storeCell_phase (a : Nat) (v : Byte) : (s.storeCell a v).phase = s.phase := rfl
@[simp] theorem storeCell_pin (a : Nat) (v : Byte) : (s.storeCell a v).pin = s.pin := rfl
@[simp] theorem storeCell_dout (a : Nat) (v : Byte) : (s.storeCell a v).dout = s.dout := rfl
@[simp] theorem storeCell_rsp (a : Nat) (v : Byte) : (s.storeCell a v).rsp = s.rsp := rfl
@[simp] theorem storeCell_mem (a : Nat) (v : Byte) : (s.storeCell a v).mem = Memory.write s.mem a v := rfl
@[simp] theorem storeCell_turns (a : Nat) (v : Byte) : (s.storeCell a v).turns = s.turns := rfl
@[simp] theorem storeCell_host (a : Nat) (v : Byte) : (s.storeCell a v).host = s.host := rfl

/-! ### endLoan -/

@[simp] theorem endLoan_op : s.endLoan.op = s.op := rfl
@[simp] theorem endLoan_h : s.endLoan.h = s.h := rfl
@[simp] theorem endLoan_r : s.endLoan.r = s.r := rfl
@[simp] theorem endLoan_row : s.endLoan.row = s.row := rfl
@[simp] theorem endLoan_col : s.endLoan.col = s.col := rfl
@[simp] theorem endLoan_mask : s.endLoan.mask = s.mask := rfl
@[simp] theorem endLoan_cur : s.endLoan.cur = s.cur := rfl
@[simp] theorem endLoan_res : s.endLoan.res = s.res := rfl
@[simp] theorem endLoan_rc : s.endLoan.rc = s.rc := rfl
@[simp] theorem endLoan_srcEnd : s.endLoan.srcEnd = s.srcEnd := rfl
@[simp] theorem endLoan_phase : s.endLoan.phase = s.phase := rfl
@[simp] theorem endLoan_pin : s.endLoan.pin = s.pin := rfl
@[simp] theorem endLoan_dout : s.endLoan.dout = s.dout := rfl
@[simp] theorem endLoan_rsp : s.endLoan.rsp = s.rsp := rfl
@[simp] theorem endLoan_mem : s.endLoan.mem = s.mem := rfl
@[simp] theorem endLoan_turns : s.endLoan.turns = s.turns := rfl
@[simp] theorem endLoan_host : s.endLoan.host = { s.host with loans := s.mem :: s.host.loans } := rfl

/-! ### putPin -/

@[simp] theorem putPin_op (t : Token) : (s.putPin t).op = s.op := rfl
@[simp] theorem putPin_h (t : Token) : (s.putPin t).h = s.h := rfl
@[simp] theorem putPin_r (t : Token) : (s.putPin t).r = s.r := rfl
@[simp] theorem putPin_row (t : Token) : (s.putPin t).row = s.row := rfl
@[simp] theorem putPin_col (t : Token) : (s.putPin t).col = s.col := rfl
@[simp] theorem putPin_mask (t : Token) : (s.putPin t).mask = s.mask := rfl
@[simp] theorem putPin_cur (t : Token) : (s.putPin t).cur = s.cur := rfl
@[simp] theorem putPin_res (t : Token) : (s.putPin t).res = s.res := rfl
@[simp] theorem putPin_rc (t : Token) : (s.putPin t).rc = s.rc := rfl
@[simp] theorem putPin_srcEnd (t : Token) : (s.putPin t).srcEnd = s.srcEnd := rfl
@[simp] theorem putPin_phase (t : Token) : (s.putPin t).phase = s.phase := rfl
@[simp] theorem putPin_pin (t : Token) : (s.putPin t).pin = some t := rfl
@[simp] theorem putPin_dout (t : Token) : (s.putPin t).dout = s.dout := rfl
@[simp] theorem putPin_rsp (t : Token) : (s.putPin t).rsp = s.rsp := rfl
@[simp] theorem putPin_mem (t : Token) : (s.putPin t).mem = s.mem := rfl
@[simp] theorem putPin_turns (t : Token) : (s.putPin t).turns = s.turns := rfl
@[simp] theorem putPin_host (t : Token) : (s.putPin t).host = s.host := rfl

/-! ### takePin -/

@[simp] theorem takePin_op (t : Token) : (s.takePin t).op = s.op := rfl
@[simp] theorem takePin_h (t : Token) : (s.takePin t).h = s.h := rfl
@[simp] theorem takePin_r (t : Token) : (s.takePin t).r = s.r := rfl
@[simp] theorem takePin_row (t : Token) : (s.takePin t).row = s.row := rfl
@[simp] theorem takePin_col (t : Token) : (s.takePin t).col = s.col := rfl
@[simp] theorem takePin_mask (t : Token) : (s.takePin t).mask = s.mask := rfl
@[simp] theorem takePin_cur (t : Token) : (s.takePin t).cur = s.cur := rfl
@[simp] theorem takePin_res (t : Token) : (s.takePin t).res = s.res := rfl
@[simp] theorem takePin_rc (t : Token) : (s.takePin t).rc = s.rc := rfl
@[simp] theorem takePin_srcEnd (t : Token) : (s.takePin t).srcEnd = s.srcEnd := rfl
@[simp] theorem takePin_phase (t : Token) : (s.takePin t).phase = s.phase := rfl
@[simp] theorem takePin_pin (t : Token) : (s.takePin t).pin = none := rfl
@[simp] theorem takePin_dout (t : Token) : (s.takePin t).dout = s.dout := rfl
@[simp] theorem takePin_rsp (t : Token) : (s.takePin t).rsp = s.rsp := rfl
@[simp] theorem takePin_mem (t : Token) : (s.takePin t).mem = s.mem := rfl
@[simp] theorem takePin_turns (t : Token) : (s.takePin t).turns = s.turns := rfl
@[simp] theorem takePin_host (t : Token) : (s.takePin t).host = { s.host with takes := recordTake t s.host.takes } := rfl

/-! ### putDout -/

@[simp] theorem putDout_op (t : Token) : (s.putDout t).op = s.op := rfl
@[simp] theorem putDout_h (t : Token) : (s.putDout t).h = s.h := rfl
@[simp] theorem putDout_r (t : Token) : (s.putDout t).r = s.r := rfl
@[simp] theorem putDout_row (t : Token) : (s.putDout t).row = s.row := rfl
@[simp] theorem putDout_col (t : Token) : (s.putDout t).col = s.col := rfl
@[simp] theorem putDout_mask (t : Token) : (s.putDout t).mask = s.mask := rfl
@[simp] theorem putDout_cur (t : Token) : (s.putDout t).cur = s.cur := rfl
@[simp] theorem putDout_res (t : Token) : (s.putDout t).res = s.res := rfl
@[simp] theorem putDout_rc (t : Token) : (s.putDout t).rc = s.rc := rfl
@[simp] theorem putDout_srcEnd (t : Token) : (s.putDout t).srcEnd = s.srcEnd := rfl
@[simp] theorem putDout_phase (t : Token) : (s.putDout t).phase = s.phase := rfl
@[simp] theorem putDout_pin (t : Token) : (s.putDout t).pin = s.pin := rfl
@[simp] theorem putDout_dout (t : Token) : (s.putDout t).dout = some t := rfl
@[simp] theorem putDout_rsp (t : Token) : (s.putDout t).rsp = s.rsp := rfl
@[simp] theorem putDout_mem (t : Token) : (s.putDout t).mem = s.mem := rfl
@[simp] theorem putDout_turns (t : Token) : (s.putDout t).turns = s.turns := rfl
@[simp] theorem putDout_host (t : Token) : (s.putDout t).host = s.host := rfl

/-! ### takeDout -/

@[simp] theorem takeDout_op (t : Token) : (s.takeDout t).op = s.op := rfl
@[simp] theorem takeDout_h (t : Token) : (s.takeDout t).h = s.h := rfl
@[simp] theorem takeDout_r (t : Token) : (s.takeDout t).r = s.r := rfl
@[simp] theorem takeDout_row (t : Token) : (s.takeDout t).row = s.row := rfl
@[simp] theorem takeDout_col (t : Token) : (s.takeDout t).col = s.col := rfl
@[simp] theorem takeDout_mask (t : Token) : (s.takeDout t).mask = s.mask := rfl
@[simp] theorem takeDout_cur (t : Token) : (s.takeDout t).cur = s.cur := rfl
@[simp] theorem takeDout_res (t : Token) : (s.takeDout t).res = s.res := rfl
@[simp] theorem takeDout_rc (t : Token) : (s.takeDout t).rc = s.rc := rfl
@[simp] theorem takeDout_srcEnd (t : Token) : (s.takeDout t).srcEnd = s.srcEnd := rfl
@[simp] theorem takeDout_phase (t : Token) : (s.takeDout t).phase = s.phase := rfl
@[simp] theorem takeDout_pin (t : Token) : (s.takeDout t).pin = s.pin := rfl
@[simp] theorem takeDout_dout (t : Token) : (s.takeDout t).dout = none := rfl
@[simp] theorem takeDout_rsp (t : Token) : (s.takeDout t).rsp = s.rsp := rfl
@[simp] theorem takeDout_mem (t : Token) : (s.takeDout t).mem = s.mem := rfl
@[simp] theorem takeDout_turns (t : Token) : (s.takeDout t).turns = s.turns := rfl
@[simp] theorem takeDout_host (t : Token) : (s.takeDout t).host = { s.host with outputs := t :: s.host.outputs } := rfl

/-! ### putRsp -/

@[simp] theorem putRsp_op (w : Response) : (s.putRsp w).op = s.op := rfl
@[simp] theorem putRsp_h (w : Response) : (s.putRsp w).h = s.h := rfl
@[simp] theorem putRsp_r (w : Response) : (s.putRsp w).r = s.r := rfl
@[simp] theorem putRsp_row (w : Response) : (s.putRsp w).row = s.row := rfl
@[simp] theorem putRsp_col (w : Response) : (s.putRsp w).col = s.col := rfl
@[simp] theorem putRsp_mask (w : Response) : (s.putRsp w).mask = s.mask := rfl
@[simp] theorem putRsp_cur (w : Response) : (s.putRsp w).cur = s.cur := rfl
@[simp] theorem putRsp_res (w : Response) : (s.putRsp w).res = s.res := rfl
@[simp] theorem putRsp_rc (w : Response) : (s.putRsp w).rc = s.rc := rfl
@[simp] theorem putRsp_srcEnd (w : Response) : (s.putRsp w).srcEnd = s.srcEnd := rfl
@[simp] theorem putRsp_phase (w : Response) : (s.putRsp w).phase = s.phase := rfl
@[simp] theorem putRsp_pin (w : Response) : (s.putRsp w).pin = s.pin := rfl
@[simp] theorem putRsp_dout (w : Response) : (s.putRsp w).dout = s.dout := rfl
@[simp] theorem putRsp_rsp (w : Response) : (s.putRsp w).rsp = some w := rfl
@[simp] theorem putRsp_mem (w : Response) : (s.putRsp w).mem = s.mem := rfl
@[simp] theorem putRsp_turns (w : Response) : (s.putRsp w).turns = s.turns := rfl
@[simp] theorem putRsp_host (w : Response) : (s.putRsp w).host = s.host := rfl

/-! ### takeRsp -/

@[simp] theorem takeRsp_op (w : Response) : (s.takeRsp w).op = s.op := rfl
@[simp] theorem takeRsp_h (w : Response) : (s.takeRsp w).h = s.h := rfl
@[simp] theorem takeRsp_r (w : Response) : (s.takeRsp w).r = s.r := rfl
@[simp] theorem takeRsp_row (w : Response) : (s.takeRsp w).row = s.row := rfl
@[simp] theorem takeRsp_col (w : Response) : (s.takeRsp w).col = s.col := rfl
@[simp] theorem takeRsp_mask (w : Response) : (s.takeRsp w).mask = s.mask := rfl
@[simp] theorem takeRsp_cur (w : Response) : (s.takeRsp w).cur = s.cur := rfl
@[simp] theorem takeRsp_res (w : Response) : (s.takeRsp w).res = s.res := rfl
@[simp] theorem takeRsp_rc (w : Response) : (s.takeRsp w).rc = s.rc := rfl
@[simp] theorem takeRsp_srcEnd (w : Response) : (s.takeRsp w).srcEnd = s.srcEnd := rfl
@[simp] theorem takeRsp_phase (w : Response) : (s.takeRsp w).phase = s.phase := rfl
@[simp] theorem takeRsp_pin (w : Response) : (s.takeRsp w).pin = s.pin := rfl
@[simp] theorem takeRsp_dout (w : Response) : (s.takeRsp w).dout = s.dout := rfl
@[simp] theorem takeRsp_rsp (w : Response) : (s.takeRsp w).rsp = none := rfl
@[simp] theorem takeRsp_mem (w : Response) : (s.takeRsp w).mem = s.mem := rfl
@[simp] theorem takeRsp_turns (w : Response) : (s.takeRsp w).turns = s.turns := rfl
@[simp] theorem takeRsp_host (w : Response) : (s.takeRsp w).host = { s.host with responses := w :: s.host.responses } := rfl

/-! ### openTakes -/

@[simp] theorem openTakes_op : s.openTakes.op = s.op := rfl
@[simp] theorem openTakes_h : s.openTakes.h = s.h := rfl
@[simp] theorem openTakes_r : s.openTakes.r = s.r := rfl
@[simp] theorem openTakes_row : s.openTakes.row = s.row := rfl
@[simp] theorem openTakes_col : s.openTakes.col = s.col := rfl
@[simp] theorem openTakes_mask : s.openTakes.mask = s.mask := rfl
@[simp] theorem openTakes_cur : s.openTakes.cur = s.cur := rfl
@[simp] theorem openTakes_res : s.openTakes.res = s.res := rfl
@[simp] theorem openTakes_rc : s.openTakes.rc = s.rc := rfl
@[simp] theorem openTakes_srcEnd : s.openTakes.srcEnd = s.srcEnd := rfl
@[simp] theorem openTakes_phase : s.openTakes.phase = s.phase := rfl
@[simp] theorem openTakes_pin : s.openTakes.pin = s.pin := rfl
@[simp] theorem openTakes_dout : s.openTakes.dout = s.dout := rfl
@[simp] theorem openTakes_rsp : s.openTakes.rsp = s.rsp := rfl
@[simp] theorem openTakes_mem : s.openTakes.mem = s.mem := rfl
@[simp] theorem openTakes_turns : s.openTakes.turns = s.turns := rfl
@[simp] theorem openTakes_host : s.openTakes.host = { s.host with takes := [] :: s.host.takes } := rfl

/-! ### recordRead -/

@[simp] theorem recordRead_op (v : Byte) : (s.recordRead v).op = s.op := rfl
@[simp] theorem recordRead_h (v : Byte) : (s.recordRead v).h = s.h := rfl
@[simp] theorem recordRead_r (v : Byte) : (s.recordRead v).r = s.r := rfl
@[simp] theorem recordRead_row (v : Byte) : (s.recordRead v).row = s.row := rfl
@[simp] theorem recordRead_col (v : Byte) : (s.recordRead v).col = s.col := rfl
@[simp] theorem recordRead_mask (v : Byte) : (s.recordRead v).mask = s.mask := rfl
@[simp] theorem recordRead_cur (v : Byte) : (s.recordRead v).cur = s.cur := rfl
@[simp] theorem recordRead_res (v : Byte) : (s.recordRead v).res = s.res := rfl
@[simp] theorem recordRead_rc (v : Byte) : (s.recordRead v).rc = s.rc := rfl
@[simp] theorem recordRead_srcEnd (v : Byte) : (s.recordRead v).srcEnd = s.srcEnd := rfl
@[simp] theorem recordRead_phase (v : Byte) : (s.recordRead v).phase = s.phase := rfl
@[simp] theorem recordRead_pin (v : Byte) : (s.recordRead v).pin = s.pin := rfl
@[simp] theorem recordRead_dout (v : Byte) : (s.recordRead v).dout = s.dout := rfl
@[simp] theorem recordRead_rsp (v : Byte) : (s.recordRead v).rsp = s.rsp := rfl
@[simp] theorem recordRead_mem (v : Byte) : (s.recordRead v).mem = s.mem := rfl
@[simp] theorem recordRead_turns (v : Byte) : (s.recordRead v).turns = s.turns := rfl
@[simp] theorem recordRead_host (v : Byte) : (s.recordRead v).host = { s.host with reads := v :: s.host.reads } := rfl

/-! ### setTurns -/

@[simp] theorem setTurns_op (ts : List Turn) : (s.setTurns ts).op = s.op := rfl
@[simp] theorem setTurns_h (ts : List Turn) : (s.setTurns ts).h = s.h := rfl
@[simp] theorem setTurns_r (ts : List Turn) : (s.setTurns ts).r = s.r := rfl
@[simp] theorem setTurns_row (ts : List Turn) : (s.setTurns ts).row = s.row := rfl
@[simp] theorem setTurns_col (ts : List Turn) : (s.setTurns ts).col = s.col := rfl
@[simp] theorem setTurns_mask (ts : List Turn) : (s.setTurns ts).mask = s.mask := rfl
@[simp] theorem setTurns_cur (ts : List Turn) : (s.setTurns ts).cur = s.cur := rfl
@[simp] theorem setTurns_res (ts : List Turn) : (s.setTurns ts).res = s.res := rfl
@[simp] theorem setTurns_rc (ts : List Turn) : (s.setTurns ts).rc = s.rc := rfl
@[simp] theorem setTurns_srcEnd (ts : List Turn) : (s.setTurns ts).srcEnd = s.srcEnd := rfl
@[simp] theorem setTurns_phase (ts : List Turn) : (s.setTurns ts).phase = s.phase := rfl
@[simp] theorem setTurns_pin (ts : List Turn) : (s.setTurns ts).pin = s.pin := rfl
@[simp] theorem setTurns_dout (ts : List Turn) : (s.setTurns ts).dout = s.dout := rfl
@[simp] theorem setTurns_rsp (ts : List Turn) : (s.setTurns ts).rsp = s.rsp := rfl
@[simp] theorem setTurns_mem (ts : List Turn) : (s.setTurns ts).mem = s.mem := rfl
@[simp] theorem setTurns_turns (ts : List Turn) : (s.setTurns ts).turns = ts := rfl
@[simp] theorem setTurns_host (ts : List Turn) : (s.setTurns ts).host = s.host := rfl

/-! ### setMem -/

@[simp] theorem setMem_op (m : Memory) : (s.setMem m).op = s.op := rfl
@[simp] theorem setMem_h (m : Memory) : (s.setMem m).h = s.h := rfl
@[simp] theorem setMem_r (m : Memory) : (s.setMem m).r = s.r := rfl
@[simp] theorem setMem_row (m : Memory) : (s.setMem m).row = s.row := rfl
@[simp] theorem setMem_col (m : Memory) : (s.setMem m).col = s.col := rfl
@[simp] theorem setMem_mask (m : Memory) : (s.setMem m).mask = s.mask := rfl
@[simp] theorem setMem_cur (m : Memory) : (s.setMem m).cur = s.cur := rfl
@[simp] theorem setMem_res (m : Memory) : (s.setMem m).res = s.res := rfl
@[simp] theorem setMem_rc (m : Memory) : (s.setMem m).rc = s.rc := rfl
@[simp] theorem setMem_srcEnd (m : Memory) : (s.setMem m).srcEnd = s.srcEnd := rfl
@[simp] theorem setMem_phase (m : Memory) : (s.setMem m).phase = s.phase := rfl
@[simp] theorem setMem_pin (m : Memory) : (s.setMem m).pin = s.pin := rfl
@[simp] theorem setMem_dout (m : Memory) : (s.setMem m).dout = s.dout := rfl
@[simp] theorem setMem_rsp (m : Memory) : (s.setMem m).rsp = s.rsp := rfl
@[simp] theorem setMem_mem (m : Memory) : (s.setMem m).mem = m := rfl
@[simp] theorem setMem_turns (m : Memory) : (s.setMem m).turns = s.turns := rfl
@[simp] theorem setMem_host (m : Memory) : (s.setMem m).host = s.host := rfl

/-! ### raiseOutOfSpace -/

@[simp] theorem raiseOutOfSpace_op : s.raiseOutOfSpace.op = s.op := rfl
@[simp] theorem raiseOutOfSpace_h : s.raiseOutOfSpace.h = s.h := rfl
@[simp] theorem raiseOutOfSpace_r : s.raiseOutOfSpace.r = s.r := rfl
@[simp] theorem raiseOutOfSpace_row : s.raiseOutOfSpace.row = s.row := rfl
@[simp] theorem raiseOutOfSpace_col : s.raiseOutOfSpace.col = s.col := rfl
@[simp] theorem raiseOutOfSpace_mask : s.raiseOutOfSpace.mask = s.mask := rfl
@[simp] theorem raiseOutOfSpace_cur : s.raiseOutOfSpace.cur = s.cur := rfl
@[simp] theorem raiseOutOfSpace_res : s.raiseOutOfSpace.res = s.res := rfl
@[simp] theorem raiseOutOfSpace_rc : s.raiseOutOfSpace.rc = true := rfl
@[simp] theorem raiseOutOfSpace_srcEnd : s.raiseOutOfSpace.srcEnd = s.srcEnd := rfl
@[simp] theorem raiseOutOfSpace_phase : s.raiseOutOfSpace.phase = .resp := rfl
@[simp] theorem raiseOutOfSpace_pin : s.raiseOutOfSpace.pin = s.pin := rfl
@[simp] theorem raiseOutOfSpace_dout : s.raiseOutOfSpace.dout = s.dout := rfl
@[simp] theorem raiseOutOfSpace_rsp : s.raiseOutOfSpace.rsp = s.rsp := rfl
@[simp] theorem raiseOutOfSpace_mem : s.raiseOutOfSpace.mem = s.mem := rfl
@[simp] theorem raiseOutOfSpace_turns : s.raiseOutOfSpace.turns = s.turns := rfl
@[simp] theorem raiseOutOfSpace_host : s.raiseOutOfSpace.host = s.host := rfl

/-! ### noteEnd -/

@[simp] theorem noteEnd_op (t : Token) : (s.noteEnd t).op = s.op := rfl
@[simp] theorem noteEnd_h (t : Token) : (s.noteEnd t).h = s.h := rfl
@[simp] theorem noteEnd_r (t : Token) : (s.noteEnd t).r = s.r := rfl
@[simp] theorem noteEnd_row (t : Token) : (s.noteEnd t).row = s.row := rfl
@[simp] theorem noteEnd_col (t : Token) : (s.noteEnd t).col = s.col := rfl
@[simp] theorem noteEnd_mask (t : Token) : (s.noteEnd t).mask = s.mask := rfl
@[simp] theorem noteEnd_cur (t : Token) : (s.noteEnd t).cur = s.cur := rfl
@[simp] theorem noteEnd_res (t : Token) : (s.noteEnd t).res = s.res := rfl
@[simp] theorem noteEnd_rc (t : Token) : (s.noteEnd t).rc = s.rc := rfl
@[simp] theorem noteEnd_srcEnd (t : Token) : (s.noteEnd t).srcEnd = (s.srcEnd || tokenIsEnd t) := rfl
@[simp] theorem noteEnd_phase (t : Token) : (s.noteEnd t).phase = s.phase := rfl
@[simp] theorem noteEnd_pin (t : Token) : (s.noteEnd t).pin = s.pin := rfl
@[simp] theorem noteEnd_dout (t : Token) : (s.noteEnd t).dout = s.dout := rfl
@[simp] theorem noteEnd_rsp (t : Token) : (s.noteEnd t).rsp = s.rsp := rfl
@[simp] theorem noteEnd_mem (t : Token) : (s.noteEnd t).mem = s.mem := rfl
@[simp] theorem noteEnd_turns (t : Token) : (s.noteEnd t).turns = s.turns := rfl
@[simp] theorem noteEnd_host (t : Token) : (s.noteEnd t).host = s.host := rfl

/-! ### endEncLoan -/

@[simp] theorem endEncLoan_op : (endEncLoan s).op = s.op := rfl
@[simp] theorem endEncLoan_h : (endEncLoan s).h = s.h := rfl
@[simp] theorem endEncLoan_r : (endEncLoan s).r = s.r := rfl
@[simp] theorem endEncLoan_row : (endEncLoan s).row = s.row := rfl
@[simp] theorem endEncLoan_col : (endEncLoan s).col = s.col := rfl
@[simp] theorem endEncLoan_mask : (endEncLoan s).mask = s.mask := rfl
@[simp] theorem endEncLoan_cur : (endEncLoan s).cur = s.cur := rfl
@[simp] theorem endEncLoan_res : (endEncLoan s).res = s.res := rfl
@[simp] theorem endEncLoan_rc : (endEncLoan s).rc = s.rc := rfl
@[simp] theorem endEncLoan_srcEnd : (endEncLoan s).srcEnd = s.srcEnd := rfl
@[simp] theorem endEncLoan_phase : (endEncLoan s).phase = s.phase := rfl
@[simp] theorem endEncLoan_pin : (endEncLoan s).pin = s.pin := rfl
@[simp] theorem endEncLoan_dout : (endEncLoan s).dout = s.dout := rfl
@[simp] theorem endEncLoan_rsp : (endEncLoan s).rsp = s.rsp := rfl
@[simp] theorem endEncLoan_mem : (endEncLoan s).mem = s.mem := rfl
@[simp] theorem endEncLoan_turns : (endEncLoan s).turns = s.turns := rfl
@[simp] theorem endEncLoan_host : (endEncLoan s).host = { s.host with loans := if s.op = .enc then s.mem :: s.host.loans else s.host.loans } := rfl

/-! ### The position advance reads COL, ROW and R only -/

@[simp] theorem nextCol_setMem (m : Memory) : nextCol (s.setMem m) = nextCol s := rfl
@[simp] theorem nextRow_setMem (m : Memory) : nextRow (s.setMem m) = nextRow s := rfl
@[simp] theorem nextCol_setCur (b : Byte) : nextCol (s.setCur b) = nextCol s := rfl
@[simp] theorem nextRow_setCur (b : Byte) : nextRow (s.setCur b) = nextRow s := rfl

end Sys2Proof.Machine
end

