-- ==== Sys2Proof/Laws/Operands.lean ====
section
/-! SUPPORT. What the operand forms and tests of Machine/Operands.lean and Machine/Flags.lean compute, in numbers. -/

namespace Sys2Proof.Machine

/-! ### Tokens and responses -/

@[simp] theorem tokenIsEnd_dataToken (b : Byte) : tokenIsEnd (dataToken b) = false := by
  revert b; decide

@[simp] theorem tokenData_dataToken (b : Byte) : tokenData (dataToken b) = b := by
  revert b; decide

@[simp] theorem tokenIsEnd_endToken : tokenIsEnd endToken = true := rfl

@[simp] theorem tokenData_endToken : tokenData endToken = 0 := rfl

@[simp] theorem responseErr_responseWord (e : Bool) (v : Wide) : responseErr (responseWord e v) = e := by
  rw [responseErr, responseWord, BitVec.getLsbD_append]
  simp

@[simp] theorem responseValue_responseWord (e : Bool) (v : Wide) : responseValue (responseWord e v) = v := by
  apply BitVec.eq_of_getLsbD_eq
  intro i hi
  rw [responseValue, BitVec.getLsbD_extractLsb', responseWord, BitVec.getLsbD_append]
  simp [hi]

/-! ### Products and addresses -/

theorem zext64_toNat (x : Word) : (zext64 x).toNat = x.toNat := by
  have := x.isLt
  simp only [zext64, BitVec.toNat_setWidth]
  exact Nat.mod_eq_of_lt (by omega)

/-- The product of two operands needs at most 64 bits. -/
theorem operand_product_lt (h r : Word) : h.toNat * r.toNat ≤ (2 ^ 32 - 1) * (2 ^ 32 - 1) :=
  Nat.mul_le_mul (by have := h.isLt; omega) (by have := r.isLt; omega)

theorem totalCells_toNat (h r : Word) : (totalCells h r).toNat = h.toNat * r.toNat := by
  have := operand_product_lt h r
  simp only [totalCells, BitVec.toNat_mul, zext64_toNat]
  exact Nat.mod_eq_of_lt (by omega)

/-- The address of a cell in its row is not wrapped. -/
theorem cellAddressAt_toNat (r y x : Word) : (cellAddressAt r y x).toNat = y.toNat * r.toNat + x.toNat := by
  have := operand_product_lt y r
  have := x.isLt
  simp only [cellAddressAt, BitVec.toNat_add, BitVec.toNat_mul, zext64_toNat]
  rw [Nat.mod_eq_of_lt (a := y.toNat * r.toNat) (by omega)]
  exact Nat.mod_eq_of_lt (by omega)

/-! ### The cursor -/

theorem exhausted_iff (s : State) : exhausted s = true ↔ s.row = s.h ∨ s.r = 0 := by
  simp [exhausted]

theorem exhausted_false_iff (s : State) : exhausted s = false ↔ s.row ≠ s.h ∧ s.r ≠ 0 := by
  simp [exhausted]

/-- The mask advance stays among the eight weights. -/
theorem nextMask_oneHot {m : Byte} (h : maskOneHot m = true) : maskOneHot (nextMask m) = true := by
  revert m; decide

/-! ### Parity and perturbation -/

/-- A perturbed cell has the parity asked for. -/
theorem perturb_lsb (v : Byte) (b : Bool) : lsb (perturb v b) = b := by
  revert v b; decide

/-- A cell whose parity matches keeps its value, any other moves by exactly 1, down above 127 and up otherwise. -/
theorem perturb_toNat (v : Byte) (b : Bool) :
    (perturb v b).toNat = if lsb v = b then v.toNat else if 127 < v.toNat then v.toNat - 1 else v.toNat + 1 := by
  revert v b; decide

/-- Perturbing again for the same bit changes nothing. -/
theorem perturb_idem (v : Byte) (b : Bool) : perturb (perturb v b) b = perturb v b := by
  rw [perturb, if_pos (perturb_lsb v b)]

end Sys2Proof.Machine
end

