-- ==== Sys2Proof/Laws/PerInstr.lean ====
section
/-! SUPPORT. The family OpcodeField: one lemma per constructor of Instr (30_encoding.md R71). -/

namespace Sys2Proof.Laws.OpcodeField

/-- The row of spec/opcode_table.json a command belongs to, as the value of the field op. -/
def rowOp : Instr → BitVec 2
  | .nop _ _ => 0b00#2
  | .cap _ _ => 0b01#2
  | .enc _ _ => 0b10#2
  | .dec _ _ => 0b11#2

/-- The field op of the command's word is its row's match. -/
def Statement (i : Instr) : Prop := opField (encode i) = rowOp i

theorem nop (h r : Word) : Statement (.nop h r) := opField_commandWord .nop h r

theorem cap (h r : Word) : Statement (.cap h r) := opField_commandWord .cap h r

theorem enc (h r : Word) : Statement (.enc h r) := opField_commandWord .enc h r

theorem dec (h r : Word) : Statement (.dec h r) := opField_commandWord .dec h r

end Sys2Proof.Laws.OpcodeField
end

