-- ==== Sys2Proof/Laws/Steps.lean ====
section
/-! SUPPORT. Inversion: what each step can do when it answers a next state, said once. -/

namespace Sys2Proof.Machine

variable {s s' : State}

theorem next_inj {a b : State} (h : (Host.Outcome.next a : Result) = .next b) : b = a := by
  cases h; rfl

theorem acceptCommand_cases {a : State} (h : acceptCommand s a = .next s') :
    (s.phase = .idle ∧ s' = a) ∨ (s.phase ≠ .idle ∧ s' = s) := by
  simp only [acceptCommand, cmdReady, beq_iff_eq] at h
  split at h
  · exact .inl ⟨‹_›, next_inj h⟩
  · exact .inr ⟨‹_›, next_inj h⟩

/-- A command presented in IDLE is accepted. -/
theorem acceptCommand_idle {a : State} (h : s.phase = .idle) : acceptCommand s a = .next a := by
  simp [acceptCommand, cmdReady, h]

/-- A command presented in any other phase has no effect. -/
theorem acceptCommand_busy {a : State} (h : s.phase ≠ .idle) : acceptCommand s a = .next s := by
  simp [acceptCommand, cmdReady, h]

theorem respStep_cases (h : respStep s = .next s') :
    ((∃ w, s.rsp = some w) ∧ s' = s) ∨
    (s.rsp = none ∧
      s' = ((endEncLoan s).putRsp (responseWord s.rc s.res)).setPhase (phaseAfterResponse s)) := by
  unfold respStep at h
  split at h
  · exact .inl ⟨⟨_, ‹_›⟩, next_inj h⟩
  · exact .inr ⟨‹_›, next_inj h⟩

theorem encFetch_cases (h : encFetch s = .next s') :
    (s.pin = none ∧ s' = s) ∨
    (∃ t, s.pin = some t ∧ s' = (((s.takePin t).noteEnd t).setCur (fetchedByte t)).setPhase .encBit) := by
  unfold encFetch at h
  split at h
  · exact .inl ⟨‹_›, next_inj h⟩
  · exact .inr ⟨_, ‹_›, next_inj h⟩

theorem encBit_cases (h : encBit s = .next s') :
    (exhausted s = true ∧ s' = s.raiseOutOfSpace) ∨
    (exhausted s = false ∧ ∃ v, Memory.read s.mem (cellAddress s).toNat = some v ∧
      s' = (((s.setMem (memAfterBit s v)).advancePos).advanceMask).setPhase (phaseAfterBit s)) := by
  unfold encBit at h
  split at h
  · exact .inl ⟨‹_›, next_inj h⟩
  · split at h
    · cases h
    · exact .inr ⟨by simpa using ‹¬exhausted s = true›, _, ‹_›, next_inj h⟩

theorem encDrain_cases (h : encDrain s = .next s') :
    (s.pin = none ∧ s' = s) ∨
    (∃ t, s.pin = some t ∧
      s' = ((s.takePin t).noteEnd t).setPhase (if tokenIsEnd t then .idle else .encDrain)) := by
  unfold encDrain at h
  split at h
  · exact .inl ⟨‹_›, next_inj h⟩
  · exact .inr ⟨_, ‹_›, next_inj h⟩

theorem decBit_cases (h : decBit s = .next s') :
    (exhausted s = true ∧ s' = s.setPhase .decEnd) ∨
    (exhausted s = false ∧ ∃ v, Memory.read s.mem (cellAddress s).toNat = some v ∧
      s' = (((s.setCur (gathered s v)).advancePos).advanceMask).setPhase (phaseAfterGather s (gathered s v))) := by
  unfold decBit at h
  split at h
  · exact .inl ⟨‹_›, next_inj h⟩
  · split at h
    · cases h
    · exact .inr ⟨by simpa using ‹¬exhausted s = true›, _, ‹_›, next_inj h⟩

theorem decEmit_cases (h : decEmit s = .next s') :
    ((∃ t, s.dout = some t) ∧ s' = s) ∨
    (s.dout = none ∧ s' = ((s.putDout (dataToken s.cur)).setCur 0).setPhase .decBit) := by
  unfold decEmit at h
  split at h
  · exact .inl ⟨⟨_, ‹_›⟩, next_inj h⟩
  · exact .inr ⟨‹_›, next_inj h⟩

theorem decEnd_cases (h : decEnd s = .next s') :
    ((∃ t, s.dout = some t) ∧ s' = s) ∨
    (s.dout = none ∧ s' = ((s.endLoan).putDout endToken).setPhase .idle) := by
  unfold decEnd at h
  split at h
  · exact .inl ⟨⟨_, ‹_›⟩, next_inj h⟩
  · exact .inr ⟨‹_›, next_inj h⟩

/-- What ENC_BIT leaves in a cell: the perturbed value in the cell of the cursor, which is `v` itself when the parity already
matches, and every other cell as it was. -/
theorem memAfterBit_read (s : State) {v : Byte} (hv : Memory.read s.mem (cellAddress s).toNat = some v) (a : Nat) :
    Memory.read (memAfterBit s v) a =
      if (cellAddress s).toNat = a then some (perturb v (currentBit s)) else Memory.read s.mem a := by
  unfold memAfterBit
  split
  · rename_i hp
    split
    · rename_i ha
      subst ha
      rw [hv, perturb, if_pos hp]
    · rfl
  · exact Memory.read_write _ _ _ _

/-- One turn: the state stays as it is, or the engine steps, or the host makes a move of the schedule; the turns left are a
suffix of those there were. -/
theorem step_cases (h : step s = .next s') :
    s' = s ∨ ∃ ts, ts <:+ s.turns ∧
      (engineStep (s.setTurns ts) = .next s' ∨
        ∃ m, (Turn.host m ∈ s.turns ∨ Turn.line m ∈ s.turns) ∧ hostMove m (s.setTurns ts) = .next s') := by
  have same : ∀ ts, s.turns = ts → s.setTurns ts = s := by
    rintro _ rfl
    rfl
  simp only [step, takeTurn] at h
  split at h
  · rename_i ht
    exact .inr ⟨s.turns, List.suffix_refl _, .inl ((same _ rfl).symm ▸ h)⟩
  · rename_i ts ht
    exact .inr ⟨ts, ht ▸ List.suffix_cons _ _, .inl h⟩
  · rename_i m ts ht
    exact .inr ⟨ts, ht ▸ List.suffix_cons _ _, .inr ⟨m, .inl (ht ▸ List.mem_cons_self), h⟩⟩
  · rename_i m ts ht
    simp only [lineTurn] at h
    split at h
    · exact .inr ⟨s.turns, List.suffix_refl _, .inl ((same _ rfl).symm ▸ h)⟩
    · split at h
      · exact .inr ⟨ts, ht ▸ List.suffix_cons _ _, .inr ⟨m, .inr (ht ▸ List.mem_cons_self), h⟩⟩
      · exact .inl (next_inj h)

/-- A move that happens is the step, the turn being used up. -/
theorem step_of_moveMade {m : HostMove} (h : moveMade s = some m) : step s = hostMove m (s.setTurns s.turns.tail) := by
  unfold moveMade at h
  simp only [step, takeTurn]
  split at h
  · rename_i ht
    rw [ht]
    split at h
    · cases h
      rfl
    · cases h
  · rename_i ht
    rw [ht]
    split at h
    · rename_i he
      cases h
      simp only [Bool.and_eq_true] at he
      simp [lineTurn, he.1, he.2]
    · cases h
  · cases h

/-- A move that happens was enabled. -/
theorem moveEnabled_of_moveMade {m : HostMove} (h : moveMade s = some m) : moveEnabled m s = true := by
  unfold moveMade at h
  split at h
  · split at h
    · cases h
      assumption
    · cases h
  · split at h
    · rename_i he
      cases h
      exact (Bool.and_eq_true_iff.1 he).2
    · cases h
  · cases h

/-- A move that is not enabled leaves no trace (R45). -/
theorem hostMove_disabled {m : HostMove} (h : moveEnabled m s = false) : hostMove m s = .next s := by
  cases m with
  | issue w =>
    have hp : s.phase ≠ .idle := by simpa [moveEnabled, cmdReady] using h
    simp only [hostMove]
    cases decodeWord w <;> exact acceptCommand_busy hp
  | push t =>
    cases hq : s.pin <;> simp_all [moveEnabled, hostMove, pushMove]
  | popDout =>
    cases hq : s.dout <;> simp_all [moveEnabled, hostMove, popDoutMove]
  | popRsp =>
    cases hq : s.rsp <;> simp_all [moveEnabled, hostMove, popRspMove]
  | reset => cases h
  | readCell a => cases h
  | writeCell a v => cases h
  | lend l => cases h

/-- A turn of the engine is its step; a `.line` turn that waits for its move stays. -/
theorem step_of_engineActs (h : engineActs s = true) :
    ∃ ts, (ts = s.turns ∨ s.turns = .engine :: ts) ∧ step s = engineStep (s.setTurns ts) := by
  have same : ∀ ts, s.turns = ts → s.setTurns ts = s := by
    rintro _ rfl
    rfl
  unfold engineActs at h
  simp only [step, takeTurn]
  cases ht : s.turns with
  | nil => exact ⟨[], .inl rfl, by rw [same _ ht]⟩
  | cons t ts =>
    rw [ht] at h
    cases t with
    | engine => exact ⟨ts, .inr rfl, rfl⟩
    | host m => cases h
    | line m =>
      refine ⟨.line m :: ts, .inl rfl, ?_⟩
      rw [same _ ht]
      have he : engineHolds s = false := by simpa using h
      simp [lineTurn, he]

/-- A step in which neither agent moves uses up its turn at most: a move of the host that is not enabled, or a line that
waits. -/
theorem step_of_neither (h : engineActs s = false) (hm : moveMade s = none) :
    ∃ ts, ts <:+ s.turns ∧ step s = .next (s.setTurns ts) := by
  unfold engineActs at h
  unfold moveMade at hm
  simp only [step, takeTurn]
  cases ht : s.turns with
  | nil => simp [ht] at h
  | cons t ts =>
    cases t with
    | engine => simp [ht] at h
    | host m =>
      have he : moveEnabled m s = false := by simpa [ht] using hm
      refine ⟨ts, List.suffix_cons _ _, ?_⟩
      have he' : moveEnabled m (s.setTurns ts) = false := by cases m <;> exact he
      exact hostMove_disabled he'
    | line m =>
      simp only [ht, Bool.not_eq_false'] at h
      have he : moveEnabled m s = false := by simpa [ht, h] using hm
      refine ⟨.line m :: ts, List.suffix_refl _, ?_⟩
      simp only [lineTurn, h, he]
      rw [← ht]
      rfl

/-- What a host move can do when it answers a next state. -/
theorem hostMove_cases {m : HostMove} (h : hostMove m s = .next s') :
    s' = s ∨ (∃ w, m = .issue w ∧ exec (decodeWord w) s = .next s') ∨
    (∃ t, m = .push t ∧ s.pin = none ∧ s' = s.putPin t) ∨
    (∃ t, m = .popDout ∧ s.dout = some t ∧ s' = s.takeDout t) ∨
    (∃ w, m = .popRsp ∧ s.rsp = some w ∧ s' = s.takeRsp w) ∨
    (m = .reset ∧ s' = resetMove s) ∨
    (∃ a v, m = .readCell a ∧ hostMayRead s a = true ∧ Memory.read s.mem a.toNat = some v ∧ s' = s.recordRead v) ∨
    (∃ a v, m = .writeCell a v ∧ hostMayWrite s a = true ∧ s' = s.storeCell a.toNat v) ∨
    (∃ l, m = .lend l ∧ hostMayLend s = true ∧ s' = s.setMem (Memory.ofBytes 0 l)) := by
  cases m with
  | issue w => exact .inr (.inl ⟨w, rfl, h⟩)
  | push t =>
    simp only [hostMove, pushMove] at h
    split at h
    · exact .inr (.inr (.inl ⟨t, rfl, ‹_›, next_inj h⟩))
    · exact .inl (next_inj h)
  | popDout =>
    simp only [hostMove, popDoutMove] at h
    split at h
    · exact .inr (.inr (.inr (.inl ⟨_, rfl, ‹_›, next_inj h⟩)))
    · exact .inl (next_inj h)
  | popRsp =>
    simp only [hostMove, popRspMove] at h
    split at h
    · exact .inr (.inr (.inr (.inr (.inl ⟨_, rfl, ‹_›, next_inj h⟩))))
    · exact .inl (next_inj h)
  | reset => exact .inr (.inr (.inr (.inr (.inr (.inl ⟨rfl, next_inj h⟩)))))
  | readCell a =>
    simp only [hostMove, readCellMove] at h
    split at h
    · split at h
      · exact .inr (.inr (.inr (.inr (.inr (.inr (.inl ⟨a, _, rfl, ‹_›, ‹_›, next_inj h⟩))))))
      · cases h
    · cases h
  | writeCell a v =>
    simp only [hostMove, writeCellMove] at h
    split at h
    · exact .inr (.inr (.inr (.inr (.inr (.inr (.inr (.inl ⟨a, v, rfl, ‹_›, next_inj h⟩)))))))
    · cases h
  | lend l =>
    simp only [hostMove, lendMove] at h
    split at h
    · exact .inr (.inr (.inr (.inr (.inr (.inr (.inr (.inr ⟨l, rfl, ‹_›, next_inj h⟩)))))))
    · cases h

/-- What the issue of a command can do. -/
theorem exec_cases {i : Instr} (h : exec i s = .next s') :
    s' = s ∨ (s.phase = .idle ∧
      ((∃ a b, i = .cap a b ∧ s' = ((s.latch .cap a b).setRes (capacity a b)).setPhase .resp) ∨
       (∃ a b, i = .enc a b ∧ s' = ((s.beginBitCommand .enc a b).openTakes).setPhase .encFetch) ∨
       (∃ a b, i = .dec a b ∧ s' = (s.beginBitCommand .dec a b).setPhase .decBit))) := by
  cases i with
  | nop a b =>
    obtain ⟨-, rfl⟩ | ⟨-, rfl⟩ := acceptCommand_cases h <;> exact .inl rfl
  | cap a b =>
    obtain ⟨hp, rfl⟩ | ⟨-, rfl⟩ := acceptCommand_cases h
    · exact .inr ⟨hp, .inl ⟨a, b, rfl, rfl⟩⟩
    · exact .inl rfl
  | enc a b =>
    obtain ⟨hp, rfl⟩ | ⟨-, rfl⟩ := acceptCommand_cases h
    · exact .inr ⟨hp, .inr (.inl ⟨a, b, rfl, rfl⟩)⟩
    · exact .inl rfl
  | dec a b =>
    obtain ⟨hp, rfl⟩ | ⟨-, rfl⟩ := acceptCommand_cases h
    · exact .inr ⟨hp, .inr (.inr ⟨a, b, rfl, rfl⟩)⟩
    · exact .inl rfl

end Sys2Proof.Machine
end

