-- ==== Sys2Proof/Tests/Slice0.lean ====
section
/-! SUPPORT. Tests: the smoke tests of WellFormed, words written out from the spec's encoding, single steps with expected
values from 95_test_vectors.md, and one witness for the hypotheses of each statement (clause by clause). -/

namespace Sys2Proof.Tests

open Sys2Proof.Machine

/-- The next state of an outcome. -/
def nextOf : Result → Option State
  | .next s => some s
  | _ => none

/-- The stop of an outcome. -/
def refusalOf : Result → Option Refusal
  | .refused r => some r
  | _ => none

/-- The fault of an outcome. -/
def faultOf : Result → Option Fault
  | .fault f => some f
  | _ => none

/-! ### WellFormed: one ill-formed term for each check -/

theorem test_canonical_nop_h : (Instr.nop 1 0).canonical = false ∧ (Instr.nop 0 0).canonical = true := by decide

theorem test_canonical_nop_r : (Instr.nop 0 1).canonical = false := by decide

theorem test_output_zero_byte_refused :
    Token.wellFormedOutput 0x000#9 = false ∧ Token.wellFormedOutput 0x048#9 = true := by decide

theorem test_output_end_with_data_refused :
    Token.wellFormedOutput 0x101#9 = false ∧ Token.wellFormedOutput 0x100#9 = true := by decide

theorem test_response_error_with_value_refused :
    Response.wellFormed 0x10000000000000001#65 = false ∧ Response.wellFormed 0x10000000000000000#65 = true := by decide

theorem test_mask_of_two_bits_refused :
    maskOneHot 3#8 = false ∧ maskOneHot 0#8 = false ∧ maskOneHot 128#8 = true := by decide

theorem test_line_wide_operand_refused :
    lineWellFormed (.cap 4294967296 1) = false ∧ lineWellFormed (.enc 1 4294967296) = false ∧
    lineWellFormed (.dec 4294967296 1) = false ∧ lineWellFormed (.dec 4294967295 4294967295) = true := by decide

theorem test_line_wide_byte_refused :
    lineWellFormed (.pushByte 256) = false ∧ lineWellFormed (.pushByte 255) = true := by decide

theorem test_line_wide_char_refused :
    lineWellFormed (.pushText [Char.ofNat 128]) = false ∧ lineWellFormed (.pushText ['H', 'i']) = true := by decide

/-! ### Words written out bit by bit from R70 and R71 -/

/-- op = 00, h = 0xDEADBEEF, r = 0x12345678 (V-NOP). -/
theorem test_decode_nop : decodeWord
    0b00_1101_1110_1010_1101_1011_1110_1110_1111_0001_0010_0011_0100_0101_0110_0111_1000#66 =
    .nop 0xDEADBEEF 0x12345678 := by decide

/-- op = 01, h = 10, r = 8 (S2). -/
theorem test_decode_cap : decodeWord
    0b01_0000_0000_0000_0000_0000_0000_0000_1010_0000_0000_0000_0000_0000_0000_0000_1000#66 =
    .cap 10 8 := by decide

/-- op = 10, h = 3, r = 5 (V-WORD). -/
theorem test_decode_enc : decodeWord
    0b10_0000_0000_0000_0000_0000_0000_0000_0011_0000_0000_0000_0000_0000_0000_0000_0101#66 =
    .enc 3 5 := by decide

/-- op = 11, h = 2, r = 16 (V-WORD). -/
theorem test_decode_dec : decodeWord
    0b11_0000_0000_0000_0000_0000_0000_0000_0010_0000_0000_0000_0000_0000_0000_0001_0000#66 =
    .dec 2 16 := by decide

theorem test_encode_words :
    encode (.nop 0 0) = 0x00000000000000000#66 ∧ encode (.cap 3 5) = 0x10000000300000005#66 ∧
    encode (.enc 8 8) = 0x20000000800000008#66 ∧ encode (.dec 2 16) = 0x30000000200000010#66 := by decide

/-- A 67-bit number is no command word. -/
theorem test_decode_wide_number_rejected : decodeTableWord 72 (2 ^ 66) = none := by decide

/-- Tokens and responses of V-WORD. -/
theorem test_token_and_response_words :
    dataToken 0x48 = 0x048#9 ∧ dataToken 0 = 0x000#9 ∧ endToken = 0x100#9 ∧
    responseWord false 10 = 0x0000000000000000A#65 ∧ responseWord true 0 = 0x10000000000000000#65 := by decide

/-! ### Operations -/

/-- V-PER, R105: (v, b, result), 127 and 128 among them. -/
theorem test_perturb_table :
    [(0, false, 0), (0, true, 1), (1, false, 2), (1, true, 1), (126, true, 127), (127, false, 128), (127, true, 127),
     (128, false, 128), (128, true, 127), (129, false, 128), (253, false, 252), (254, true, 253), (255, false, 254),
     (255, true, 255)].all (fun (v, b, x) => perturb (BitVec.ofNat 8 v) b == BitVec.ofNat 8 x) = true := by decide

/-- V-CAP: (h, r, capacity), with the product that needs more than 32 bits and the largest one. -/
theorem test_capacity_table :
    [(0, 0, 0), (0, 9, 0), (9, 0, 0), (1, 7, 0), (1, 8, 1), (2, 9, 2), (3, 5, 1), (8, 8, 8), (10, 8, 10),
     (65536, 65536, 536870912), (4294967295, 4294967295, 2305843008139952128)].all (fun (h, r, c) =>
      capacity (BitVec.ofNat 32 h) (BitVec.ofNat 32 r) == BitVec.ofNat 64 c) = true := by decide

theorem test_memory_write_sorted :
    Memory.write (Memory.write (Memory.write [] 7 1) 3 2) 7 9 = [(3, 2), (7, 9)] := by decide

/-- The mask runs through the weights of S9. -/
theorem test_mask_order :
    [128, 64, 32, 16, 8, 4, 2, 1].map nextMask = ([64, 32, 16, 8, 4, 2, 1, 128] : List Byte) := by decide

/-! ### Single steps -/

/-- An IDLE state with a buffer attached. -/
def idleWith (cells : List Byte) : State := { State.reset with mem := Memory.ofBytes 0 cells }

/-- Worked example of R90: CAP 3, 5 puts 1 into RES and goes to RESP. -/
theorem test_cap_issue :
    (nextOf (exec (.cap 3 5) State.reset)).map (fun s => (s.res, s.phase)) = some (1, .resp) := by decide

/-- R30: ENC starts with a fresh cursor whatever the registers held. -/
theorem test_enc_issue :
    (nextOf (exec (.enc 3 5) { State.reset with row := 9, col := 9, mask := 1, cur := 7, rc := true })).map
      (fun s => (s.row, s.col, s.mask, s.cur, s.rc, s.phase)) = some (0, 0, 128, 0, false, .encFetch) := by decide

theorem test_dec_issue :
    (nextOf (exec (.dec 2 16) { State.reset with row := 9, col := 9, mask := 1, cur := 7 })).map
      (fun s => (s.h, s.r, s.row, s.col, s.mask, s.phase)) = some (2, 16, 0, 0, 128, .decBit) := by decide

theorem test_nop_issue : nextOf (exec (.nop 0xDEADBEEF 0x12345678) State.reset) = some State.reset := by decide

/-- The first step after reset runs the word placed on the CMD port. -/
theorem test_first_command_after_reset :
    (nextOf (step (State.reset.withFetchWord 72 0x10000000A00000008))).map (fun s => (s.res, s.turns)) =
      some (10, []) := by decide

/-- After reset the block executes nothing (R183). -/
theorem test_reset_waits : nextOf (step State.reset) = some State.reset := by decide

/-- P2, cell 12: MASK = 8 of 0x69, cell 200 needs parity 1 and becomes 199. -/
def midEncode : State :=
  { State.reset with op := .enc, h := 8, r := 8, row := 1, col := 4, mask := 8, cur := 0x69, phase := .encBit,
                     mem := [(12, 200), (13, 201)], host := ⟨[], [], [[]], [], []⟩ }

theorem test_enc_bit_p2_cell12 :
    (nextOf (engineStep midEncode)).map (fun s => (s.mem, s.row, s.col, s.mask, s.phase)) =
      some ([(12, 199), (13, 201)], 1, 5, 4, .encBit) := by decide

/-- P3, cell 9 to cell 10: the cursor crosses from the end of row 1 to row 2. -/
theorem test_enc_bit_crosses_rows :
    (nextOf (engineStep { midEncode with h := 3, r := 5, row := 1, col := 4, mask := 64, cur := 0, mem := [(9, 204)] })).map
      (fun s => (s.mem, s.row, s.col, s.mask)) = some ([(9, 204)], 2, 0, 32) := by decide

/-- P3, at the failure: ROW = 3, COL = 0, MASK = 1, CUR = 0. -/
def p3Failure : State :=
  { State.reset with op := .enc, h := 3, r := 5, row := 3, col := 0, mask := 1, cur := 0, srcEnd := true,
                     phase := .encBit, host := ⟨[], [], [[endToken]], [], []⟩ }

theorem test_out_of_space : nextOf (engineStep p3Failure) = some { p3Failure with rc := true, phase := .resp } := by decide

/-- Worked example of R130: the last bit of 0x48 in group 0. -/
def lastOfGroup : State :=
  { State.reset with op := .dec, h := 1, r := 16, row := 0, col := 7, mask := 1, cur := 0x48, phase := .decBit,
                     mem := [(7, 2)] }

theorem test_dec_bit_completes_group :
    (nextOf (engineStep lastOfGroup)).map (fun s => (s.cur, s.mask, s.phase)) = some (0x48, 128, .decEmit) := by decide

/-- V-DEC-2: the eighth DEC_BIT of DEC 1, 7 finds the cursor exhausted and the gathered bits are dropped. -/
theorem test_dec_incomplete_group :
    (nextOf (engineStep { lastOfGroup with r := 7, row := 1, col := 0, cur := 0xFE })).map (·.phase) = some .decEnd := by
  decide

theorem test_unattached_cell_refused :
    refusalOf (engineStep { midEncode with mem := [] }) = some .cellNotAttached := by decide

theorem test_host_write_on_loan_refused :
    refusalOf (hostMove (.writeCell 0 1) midEncode) = some .bufferOnLoan := by decide

theorem test_host_read_unattached_faults :
    faultOf (hostMove (.readCell 0) State.reset) = some .hostReadUnattached := by decide

/-- V-RST: RESET in mid-ENC keeps the memory. -/
theorem test_reset_move :
    nextOf (hostMove .reset midEncode) = some { State.reset with mem := midEncode.mem, host := midEncode.host } := by decide

/-- P1 assembles to its words. -/
theorem test_assemble_p1 :
    assemble [.reset, .nop, .cap 10 8, .popr] =
      some [.line .reset, .line (.issue 0x00000000000000000#66), .line (.issue 0x10000000A00000008#66), .line .popRsp] := by
  decide

/-- P2 pushes "Hi" as 0x48 and 0x69. -/
theorem test_assemble_text :
    assemble [.pushText ['H', 'i'], .pushEos, .popd] =
      some [.line (.push 0x048#9), .line (.push 0x069#9), .line (.push 0x100#9), .line .popDout] := by decide

/-! ### Witnesses: the hypotheses of each statement, met together -/

/-- A command in progress. -/
def fetching : State := { midEncode with mask := 128, cur := 0, phase := .encFetch }

/-- An ENC that has succeeded on an embedded zero, its frame not ended. -/
def responding : State := { midEncode with mask := 128, cur := 0, phase := .resp }

/-- A DEC with a byte to hand over. -/
def emitting : State := { lastOfGroup with row := 0, col := 8, mask := 128, phase := .decEmit }

theorem witness_StepRunsTheDecodedCommand :
    decode (0x10000000300000005#66).toNat = .ok (.cap 3 5) ∧
    (presentCommand State.reset 0x10000000300000005#66).turns = [.host (.issue 0x10000000300000005#66)] ∧
    ({ State.reset with turns := [.line (.issue 0x10000000300000005#66)] } : State).phase = .idle :=
  ⟨rfl, rfl, rfl⟩

theorem witness_BusyBlockTakesNoCommand :
    midEncode.phase ≠ .idle ∧ (midEncode.setTurns [.host (.issue 0#66)]).turns = [.host (.issue 0#66)] := by decide

theorem witness_NopChangesNoState : opField 0x0DEADBEEF12345678#66 = 0 := by decide

/-- IssueWritesExactlyWhatTheRuleSays, CapAnswersTheCapacity (RSP empty) and CapProgramDeliversOneResponse. -/
theorem witness_idle_rsp_empty : State.reset.phase = .idle ∧ State.reset.rsp = none := by decide

/-- CapAnswersTheCapacity with RSP full. -/
theorem witness_CapAnswersTheCapacity_full :
    ({ State.reset with rsp := some (responseWord false 1) } : State).phase = .idle ∧
    ({ State.reset with rsp := some (responseWord false 1) } : State).rsp ≠ none := by decide

theorem witness_IssueTouchesNoSlotAndNoCell : ∃ t, exec (.cap 3 5) midEncode = .next t := ⟨_, rfl⟩

/-- Two IDLE states that differ in every register an ENC leaves behind. -/
theorem witness_IssueKeepsNothingOfTheLastCommand :
    let b : State := { State.reset with op := .dec, h := 8, r := 8, row := 3, mask := 1, cur := 5, res := 2, rc := true }
    State.reset ≠ b ∧ State.reset.phase = .idle ∧ b.phase = .idle ∧ State.reset.pin = b.pin ∧ State.reset.dout = b.dout ∧
    State.reset.rsp = b.rsp ∧ State.reset.mem = b.mem ∧ State.reset.turns = b.turns ∧ State.reset.host = b.host := by
  decide

theorem witness_EncFetchTakesOneToken :
    fetching.phase = .encFetch ∧ fetching.pin = none ∧
    (fetching.putPin 0x1FF#9).pin = some 0x1FF#9 ∧ (0x1FF#9).getLsbD 8 = true ∧
    (fetching.putPin 0x000#9).pin = some 0x000#9 ∧ (0x000#9).getLsbD 8 = false := by decide

/-- EncBitWritesOneBitAndAdvances, EncBitPerturbsMinimally and MissingCellRefusesTheBitStep: exhausted at ROW = H and at R = 0, no cell attached, the last
cell of the buffer, a middle one. -/
theorem witness_EncBit :
    p3Failure.phase = .encBit ∧ exhausted p3Failure = true ∧
    exhausted { midEncode with r := 0 } = true ∧
    exhausted { midEncode with mem := [] } = false ∧ Memory.read ({ midEncode with mem := [] } : State).mem 12 = none ∧
    exhausted { midEncode with row := 7, col := 7, mem := [(63, 5)] } = false ∧
    (cellAddress { midEncode with row := 7, col := 7, mem := [(63, 5)] }).toNat = 63 ∧
    midEncode.phase = .encBit ∧ exhausted midEncode = false ∧ (cellAddress midEncode).toNat = 12 ∧
    Memory.read midEncode.mem (cellAddress midEncode).toNat = some 200 := by decide

theorem witness_EncBitPerturbsMinimally : ∃ s', engineStep midEncode = .next s' := ⟨_, rfl⟩

theorem witness_EncDrain_entered : responding.phase = .resp ∧ responding.rsp = none ∧
    ∃ s', engineStep responding = .next s' ∧ s'.phase = .encDrain := ⟨rfl, rfl, _, rfl, rfl⟩

theorem witness_EncDrainDropsTheRestOfTheFrame :
    let s : State := { fetching with phase := .encDrain }
    s.phase = .encDrain ∧ s.pin = none ∧ (s.putPin 0x100#9).pin = some 0x100#9 ∧ (0x100#9).getLsbD 8 = true ∧
    (s.putPin 0x062#9).pin = some 0x062#9 ∧ (0x062#9).getLsbD 8 = false := by decide

theorem witness_RespStepAndHolds :
    engineHolds fetching = true ∧ State.reset.phase = .idle ∧
    responding.phase = .resp ∧ responding.rsp = none ∧ responding.op = .enc ∧ responding.srcEnd = false ∧
    ({ responding with srcEnd := true } : State).srcEnd = true ∧ ({ responding with op := .cap } : State).op ≠ .enc ∧
    engineHolds { responding with rsp := some (responseWord false 0) } = true := by decide

/-- Exhausted, no cell attached, and the two parities of the cell read. -/
theorem witness_DecBitGathersOneBit :
    lastOfGroup.phase = .decBit ∧ exhausted { lastOfGroup with row := 1, col := 0 } = true ∧
    exhausted lastOfGroup = false ∧ (cellAddress lastOfGroup).toNat = 7 ∧
    Memory.read ({ lastOfGroup with mem := [] } : State).mem 7 = none ∧
    Memory.read lastOfGroup.mem 7 = some 2 ∧ Memory.read ({ lastOfGroup with mem := [(7, 3)] } : State).mem 7 = some 3 := by
  decide

theorem witness_DecEmitPutsTheByte :
    emitting.phase = .decEmit ∧ emitting.dout = none ∧ ({ emitting with dout := some endToken } : State).dout ≠ none := by
  decide

theorem witness_DecEndPutsTheEndToken :
    let s : State := { emitting with phase := .decEnd }
    s.phase = .decEnd ∧ s.dout = none ∧ ({ s with dout := some endToken } : State).dout ≠ none := by decide

/-- The invariants of a state without a word in DOUT or RSP, from closed facts. -/
theorem inv_of_empty_slots {s : State} (hd : s.dout = none) (hr : s.rsp = none)
    (h1 : maskOneHot s.mask = true) (h2 : s.phase = .encFetch → s.mask = 128)
    (h3 : s.phase = .decEmit → s.mask = 128 ∧ s.cur ≠ 0)
    (h4 : s.phase = .encBit ∨ s.phase = .decBit → exhausted s = false → s.col < s.r ∧ s.row < s.h)
    (h5 : s.op = .enc ∨ s.op = .dec → s.row ≤ s.h)
    (h6 : s.phase = .decBit → s.cur &&& (s.mask ||| (s.mask - 1)) = 0)
    (h7 : s.rc = true → s.op = .enc ∧ (s.phase = .resp ∨ s.phase = .encDrain ∨ s.phase = .idle))
    (h8 : s.phase = .encFetch ∨ s.phase = .encBit ∨ s.phase = .encDrain → s.op = .enc)
    (h9 : s.phase = .decBit ∨ s.phase = .decEmit ∨ s.phase = .decEnd → s.op = .dec)
    (h10 : s.phase = .resp → s.op = .cap ∨ s.op = .enc)
    (h11 : s.op = .enc ∨ s.op = .dec → exhausted s = false → s.col < s.r)
    (h12 : s.op = .enc ∨ s.op = .dec → s.row = s.h → s.col = 0)
    (h13 : s.phase = .encFetch ∨ s.phase = .encDrain → s.srcEnd = false)
    (h14 : s.phase = .encBit → s.srcEnd = true → s.cur = 0) (h15 : s.op = .enc → s.res = 0) : Inv s :=
  ⟨h1, h2, h3, h4, h5, h6, h7, h8, h9, h10, h11, h12, h13, h14, h15,
    fun _ h => absurd (hd.symm.trans h) (by simp), fun _ h => absurd (hr.symm.trans h) (by simp)⟩

/-- EncFetchTakesOneToken and DecBitGathersOneBit, the clauses about states that meet the invariants. -/
theorem witness_fetching_and_gathering_inv : Inv fetching ∧ Inv lastOfGroup :=
  ⟨by apply inv_of_empty_slots <;> decide, by apply inv_of_empty_slots <;> decide⟩

/-- EveryStepKeepsTheInvariants, EngineStaysInsideTheBuffer: a state in the middle of an ENC. -/
theorem witness_midEncode_inv : Inv midEncode ∧ exhausted midEncode = false ∧ ∃ s', step midEncode = .next s' :=
  ⟨by apply inv_of_empty_slots <;> decide, by decide, _, rfl⟩

theorem witness_OutOfSpaceIsTakenAndReported :
    Inv p3Failure ∧ p3Failure.phase = .encBit ∧ exhausted p3Failure = true ∧ p3Failure.rsp = none :=
  ⟨by apply inv_of_empty_slots <;> decide, rfl, rfl, rfl⟩

/-- The same with R = 0 and RSP full. -/
theorem witness_OutOfSpaceIsTakenAndReported_full :
    let s : State := { p3Failure with h := 5, r := 0, row := 0, mask := 128, rsp := some (responseWord false 1) }
    Inv s ∧ s.phase = .encBit ∧ exhausted s = true ∧ s.rsp ≠ none := by
  refine ⟨?_, rfl, rfl, by decide⟩
  constructor
  case dout_word => intro t h; cases h
  case rsp_word => intro w h; cases h; decide
  all_goals decide

theorem witness_OnlyExhaustedEncBitSetsRC :
    ∃ s', step p3Failure = .next s' ∧ p3Failure.rc = false ∧ s'.rc = true := ⟨_, rfl, rfl, rfl⟩

theorem witness_SlotMovesHappenWhenEnabled :
    State.reset.pin = none ∧ (State.reset.putPin 0#9).pin ≠ none ∧ (State.reset.putDout 5#9).dout = some 5#9 ∧
    State.reset.dout = none ∧ (State.reset.putRsp 9#65).rsp = some 9#65 ∧ State.reset.rsp = none := by decide

theorem witness_ResetGivesTheValuesOfTheTable :
    (midEncode.setTurns [.host .reset, .engine]).turns = .host .reset :: [.engine] := rfl

/-- HostViewRecordsWhatIsObserved: a pop, a taking, an ENC accepted, the end of a loan, a read, and a pop that is not enabled. -/
theorem witness_HostViewRecordsWhatIsObserved :
    (∃ s', step ((midEncode.putRsp 9#65).setTurns [.host .popRsp]) = .next s' ∧ s'.host.responses = [9#65]) ∧
    (∃ s', step ((midEncode.putDout 9#9).setTurns [.host .popDout]) = .next s' ∧ s'.host.outputs = [9#9]) ∧
    (∃ s', step (fetching.putPin endToken) = .next s' ∧ s'.host.takes = [[endToken]]) ∧
    (∃ s', step (presentCommand State.reset (encode (.enc 1 1))) = .next s' ∧ s'.host.takes = [[]]) ∧
    (∃ s', step responding = .next s' ∧ s'.host.loans = [responding.mem]) ∧
    (∃ s', step ((idleWith [7]).setTurns [.host (.readCell 0)]) = .next s' ∧ s'.host.reads = [7]) ∧
    (∃ s', step (midEncode.setTurns [.host .popRsp]) = .next s' ∧ s'.host.responses = []) :=
  ⟨⟨_, rfl, rfl⟩, ⟨_, rfl, rfl⟩, ⟨_, rfl, rfl⟩, ⟨_, rfl, rfl⟩, ⟨_, rfl, rfl⟩, ⟨_, rfl, rfl⟩, _, rfl, rfl⟩

/-- FinalStateIsOver: final with engine turns left, with none, and with a pop that is not enabled; not final with a word in RSP
or an enabled move to come. -/
theorem witness_FinalStateIsOver :
    Final (State.reset.setTurns [.engine, .engine]) ∧ Final State.reset ∧ Final (State.reset.setTurns [.host .popRsp]) ∧
    ¬ Final (State.reset.putRsp 9#65) ∧ ¬ Final (State.reset.setTurns [.engine, .host .reset]) := by
  unfold Final
  decide

/-- The last cell inside the buffer and the first outside it, in the loan of an ENC and of a DEC; a cell attached or not. -/
theorem witness_OwnershipOfTheBuffer :
    midEncode.phase = .encBit ∧ (63#64).toNat < midEncode.h.toNat * midEncode.r.toNat ∧
    ¬(64#64).toNat < midEncode.h.toNat * midEncode.r.toNat ∧
    (responding.phase = .resp ∧ responding.op = .enc) ∧
    lastOfGroup.phase = .decBit ∧ (15#64).toNat < lastOfGroup.h.toNat * lastOfGroup.r.toNat ∧
    ¬(16#64).toNat < lastOfGroup.h.toNat * lastOfGroup.r.toNat ∧
    Memory.read lastOfGroup.mem 7 = some 2 ∧ Memory.read lastOfGroup.mem 8 = none := by decide

theorem witness_LentMemoryHoldsTheBytes :
    State.reset.phase = .idle ∧ ({ fetching with phase := .encDrain } : State).phase = .encDrain ∧
    ({ responding with op := .cap } : State).phase = .resp ∧ ({ responding with op := .cap } : State).op ≠ .enc ∧
    fetching.phase = .encFetch ∧ midEncode.phase = .encBit ∧ responding.phase = .resp ∧ responding.op = .enc ∧
    lastOfGroup.phase = .decBit ∧ emitting.phase = .decEmit := by decide

theorem witness_AssemblerNeverTruncates :
    4294967295 < 2 ^ 32 ∧ (0 : Nat) < 2 ^ 32 ∧ 2 ^ 32 ≤ 4294967296 ∧ 255 < 256 ∧
    (∀ c ∈ ['H', '\x7F'], c.toNat < 128) ∧ (∃ c ∈ ['H', '\u0080'], 128 ≤ c.toNat) ∧
    assemble [.popd] = some [.line .popDout] ∧ assemble [.pushByte 256] = none := by
  refine ⟨by decide, by decide, by decide, by decide, by simp, ⟨'\u0080', by simp, by decide⟩, rfl, rfl⟩

/-- PhaseFollowsTheTransitionGraph: a step along an edge, and one by RESET. -/
theorem witness_PhaseFollowsTheTransitionGraph :
    (∃ s', step p3Failure = .next s' ∧ s'.phase ≠ p3Failure.phase ∧ phaseEdge p3Failure s'.phase = true) ∧
    (∃ s', step (midEncode.setTurns [.host .reset]) = .next s' ∧ s'.phase = .idle ∧
      phaseEdge (midEncode.setTurns [.host .reset]) .idle = false) :=
  ⟨⟨_, rfl, by decide, rfl⟩, _, rfl, rfl, rfl⟩

theorem witness_EveryStepKeepsMemoryCanonical : MemInv midEncode ∧ ∃ s', step midEncode = .next s' :=
  ⟨⟨by decide, by decide⟩, _, rfl⟩

/-- A state in the middle of a command is reached from reset. -/
theorem witness_ReachableStatesMeetTheInvariants :
    ∃ s, Reachable s ∧ s.phase = .encBit :=
  ⟨_, ⟨3, [.host (.issue (encode (.enc 1 1))), .host (.push endToken), .engine], rfl⟩, rfl⟩

/-- EngineStaysInsideTheBuffer, last clause. -/
theorem witness_EngineStaysInsideTheBuffer :
    (∃ s', engineStep midEncode = .next s') ∧ (∃ s', exec (.cap 3 5) State.reset = .next s') := ⟨⟨_, rfl⟩, _, rfl⟩

/-- CursorVisitsCellsInOrder: the last cell of a row, a middle cell, the exhausted cursor. -/
theorem witness_CursorVisitsCellsInOrder :
    let last : State := { midEncode with col := 7 }
    (last.col < last.r ∧ last.row < last.h ∧ last.col + 1 = last.r) ∧
    (midEncode.col < midEncode.r ∧ midEncode.row < midEncode.h ∧ midEncode.col + 1 ≠ midEncode.r) ∧
    (p3Failure.row ≤ p3Failure.h ∧ (exhausted p3Failure = false → p3Failure.col < p3Failure.r)) := by decide

/-- OnlyEncBitWritesCells and EngineMovesSlotsOnlyWhereAllowed. -/
theorem witness_OnlyEncBitWritesCells : ∃ s', engineStep emitting = .next s' ∧ emitting.phase ≠ .encBit :=
  ⟨_, rfl, by decide⟩

/-- An ENC 1, 1 at its first bit, the one cell attached. -/
def oneCell : State :=
  { State.reset with op := .enc, h := 1, r := 1, srcEnd := true, phase := .encBit, mem := [(0, 7)],
                     host := ⟨[], [], [[endToken]], [], []⟩ }

theorem witness_EngineNeverStopsOnAnAttachedBuffer : Inv oneCell ∧ covers oneCell.mem oneCell.h oneCell.r :=
  ⟨by apply inv_of_empty_slots <;> decide, by unfold covers; decide⟩

theorem witness_HoldingEngineWaitsForTheHost :
    let s := fetching.setTurns [.engine, .engine]
    engineHolds s = true ∧ ∀ t ∈ s.turns, t = .engine := by decide

theorem witness_ProgramLineWaitsForItsMove :
    engineHolds (midEncode.setTurns [.line .popRsp]) = false ∧
    engineHolds (fetching.setTurns [.line (.push endToken)]) = true ∧
    moveEnabled (.push endToken) (fetching.setTurns [.line (.push endToken)]) = true ∧
    engineHolds (fetching.setTurns [.line .popRsp]) = true ∧
    moveEnabled .popRsp (fetching.setTurns [.line .popRsp]) = false := by decide

theorem witness_StrayTokenJoinsTheNextFrame :
    (State.reset.putPin endToken).phase = .idle ∧ (State.reset.putPin endToken).pin = some endToken := by decide

/-- The whole-effect statements about ENC and the round trip: a buffer with room for two bytes, no payload byte of a second
geometry shut out, any end token. -/
theorem witness_encode_whole_effects :
    let s := idleWith (List.replicate 16 7)
    s.phase = .idle ∧ s.pin = none ∧ s.rsp = none ∧ s.dout = none ∧ (0x1FF#9).getLsbD 8 = true ∧
    (∀ a, a < 2 * 8 → (Memory.read s.mem a).isSome = true) ∧
    8 * ((logicalPayload [0x61#8]).length + 1) ≤ 2 * 8 ∧
    8 * ((logicalPayload [0x61#8, 0#8, 0x62#8]).length + 1) ≤ 2 * 8 ∧
    min (8 * ((logicalPayload [0x61#8, 0x62#8]).length + 1)) (2 * 8) = 16 := by decide

theorem witness_covers_sixteen : covers (idleWith (List.replicate 16 7)).mem 2 8 ∧
    covers (idleWith (List.replicate 16 7)).mem 1 16 := by unfold covers; decide

/-- DecodeHasTheWholeEffectOfTheRule: a zero group first (only its eight cells are needed), and no zero group. -/
theorem witness_DecodeHasTheWholeEffectOfTheRule :
    let z := idleWith (List.replicate 8 6)
    let n := idleWith (List.replicate 9 7)
    z.phase = .idle ∧ z.dout = none ∧ decodedBytes z.mem 16 = [] ∧
    (∀ a, a < 8 → (Memory.read z.mem a).isSome = true) ∧
    n.phase = .idle ∧ n.dout = none ∧ decodedBytes n.mem 9 = [0xFF] ∧
    (∀ a, a < 9 → (Memory.read n.mem a).isSome = true) := by decide

/-- EncodingAgainChangesNoCell: ENC 1, 1 with an empty payload, run to its end twice (seven steps each). -/
theorem witness_EncodingAgainChangesNoCell :
    ∃ s' s'', run 7 { idleWith [7] with turns := encodeProgram 1 1 (payloadFrame [] endToken) } = .next s' ∧
      s'.turns = [] ∧ covers (idleWith [7]).mem 1 1 ∧
      run 7 { s' with turns := encodeProgram 1 1 (payloadFrame [] endToken) } = .next s'' ∧ s''.turns = [] :=
  ⟨_, _, rfl, rfl, by unfold covers; decide, rfl, rfl⟩

/-- BufferDuringEncodeHoldsAPrefix and EncodeIsIndependentOfTheSchedule: an ENC 1, 1 under a schedule, after three turns with
the buffer still lent, and after five with the loan ended. -/
theorem witness_encode_every_schedule :
    let s := (idleWith [7]).setTurns [.host (.push endToken), .engine]
    s.phase = .idle ∧ covers s.mem 1 1 ∧ NoReset s.turns ∧
    ∃ t, exec (.enc 1 1) s = .next t ∧
      (∃ s', run 3 t = .next s' ∧ s'.host.loans = s.host.loans) ∧
      (∃ s' m tokens, run 5 t = .next s' ∧ s'.host.loans = m :: s.host.loans ∧
        s'.host.takes = tokens :: s.host.takes) :=
  ⟨rfl, by unfold covers; decide, by unfold NoReset; decide, _, rfl, ⟨_, rfl, rfl⟩, _, _, _, rfl, rfl, rfl⟩

/-- DecodeIsIndependentOfTheSchedule: a DEC 1, 1 whose loan has ended after three turns. -/
theorem witness_DecodeIsIndependentOfTheSchedule :
    let s := (idleWith [7]).setTurns [.engine, .engine]
    s.phase = .idle ∧ covers s.mem 1 1 ∧ NoReset s.turns ∧
    ∃ t, exec (.dec 1 1) s = .next t ∧ ∃ s' m, run 3 t = .next s' ∧ s'.host.loans = m :: s.host.loans :=
  ⟨rfl, by unfold covers; decide, by unfold NoReset; decide, _, rfl, _, _, rfl, rfl⟩

end Sys2Proof.Tests
end

/-! PROOFS. The statements about 10_state.md: the invariants of R46, the transition graph of R33, the cursor of R32, the
slots of R35 to R37, the moves of R44 and R45, and how a turn issues a command. -/

namespace Sys2Proof.Machine

/-! ### Command words -/

/-- The opcode of a command (R71). -/
def opcodeOfInstr : Instr → Opcode
  | .nop _ _ => .nop
  | .cap _ _ => .cap
  | .enc _ _ => .enc
  | .dec _ _ => .dec

theorem opcodeOfInstr_decodeWord (w : CommandWord) : opcodeOfInstr (decodeWord w) = opcodeOf (opField w) := by
  unfold decodeWord
  split <;> exact Eq.symm ‹_›

/-- Every command comes back from its word (R70). -/
theorem decodeWord_encode (i : Instr) : decodeWord (encode i) = i := by
  cases i <;> simp [encode, decodeWord, opField_commandWord, opcodeOf_bits, hField_commandWord, rField_commandWord]

/-- A 66-bit word, read as a number, is decoded as it stands (R73). -/
theorem decode_toNat (w : CommandWord) : decode w.toNat = .ok (decodeWord w) := by
  rw [decode, if_pos w.isLt, BitVec.ofNat_toNat, BitVec.setWidth_eq]

theorem eq_decodeWord {w : CommandWord} {i : Instr} (h : decode w.toNat = .ok i) : i = decodeWord w := by
  rw [decode_toNat] at h
  cases h
  rfl

/-- A command presented in any phase but IDLE has no effect (R34, R192). -/
theorem exec_busy {s : State} (i : Instr) (h : s.phase ≠ .idle) : exec i s = .next s := by
  cases i <;> exact acceptCommand_busy h

theorem exec_cap_idle {s : State} (h r : Word) (hp : s.phase = .idle) :
    exec (.cap h r) s = .next (((s.latch .cap h r).setRes (capacity h r)).setPhase .resp) :=
  acceptCommand_idle hp

theorem exec_enc_idle {s : State} (h r : Word) (hp : s.phase = .idle) :
    exec (.enc h r) s = .next (((s.beginBitCommand .enc h r).openTakes).setPhase .encFetch) :=
  acceptCommand_idle hp

theorem exec_dec_idle {s : State} (h r : Word) (hp : s.phase = .idle) :
    exec (.dec h r) s = .next ((s.beginBitCommand .dec h r).setPhase .decBit) :=
  acceptCommand_idle hp

/-! ### The turns of the schedule -/

theorem cmdReady_iff (s : State) : cmdReady s = true ↔ s.phase = .idle := by
  simp [cmdReady]

theorem engineHolds_of_idle {s : State} (h : s.phase = .idle) : engineHolds s = true := by
  simp [engineHolds, h]

/-- A step of the engine whose slot condition fails changes nothing (R44). -/
theorem engineStep_of_engineHolds {s : State} (h : engineHolds s = true) : engineStep s = .next s := by
  unfold engineHolds at h
  unfold engineStep
  cases hp : s.phase <;> simp only [hp] at h
  case idle => rfl
  case encFetch => simp [encFetch, hold, Option.isNone_iff_eq_none.1 h]
  case encDrain => simp [encDrain, hold, Option.isNone_iff_eq_none.1 h]
  case resp =>
    obtain ⟨w, hw⟩ := Option.isSome_iff_exists.1 h
    simp [respStep, hold, hw]
  case decEmit =>
    obtain ⟨t, ht⟩ := Option.isSome_iff_exists.1 h
    simp [decEmit, hold, ht]
  case decEnd =>
    obtain ⟨t, ht⟩ := Option.isSome_iff_exists.1 h
    simp [decEnd, hold, ht]
  case encBit => cases h
  case decBit => cases h

/-- The RESP step, when RSP is empty (R44). -/
theorem engineStep_resp {s : State} (hp : s.phase = .resp) (hr : s.rsp = none) :
    engineStep s = .next (((endEncLoan s).putRsp (responseWord s.rc s.res)).setPhase (phaseAfterResponse s)) := by
  simp [engineStep, respStep, hp, hr]

theorem step_host_turn {s : State} {m : HostMove} {ts : List Turn} (h : s.turns = .host m :: ts) :
    step s = hostMove m (s.setTurns ts) := by
  simp only [step, takeTurn, h]

/-- A line of a program makes its move when the engine can do no more and the move is enabled (R79). -/
theorem step_line_move {s : State} {m : HostMove} {ts : List Turn} (h : s.turns = .line m :: ts)
    (hh : engineHolds s = true) (hm : moveEnabled m s = true) : step s = hostMove m (s.setTurns ts) := by
  simp [step, takeTurn, lineTurn, h, hh, hm]

/-- A line of a program that issues a command issues it in IDLE (R34, R79). -/
theorem step_line_issue {s : State} {w : CommandWord} {ts : List Turn} (h : s.turns = .line (.issue w) :: ts)
    (hp : s.phase = .idle) : step s = exec (decodeWord w) (s.setTurns ts) :=
  step_line_move h (engineHolds_of_idle hp) ((cmdReady_iff s).2 hp)

/-- While the engine can move, a line of a program lets it (R79). -/
theorem step_line_engine {s : State} {m : HostMove} {ts : List Turn} (h : s.turns = .line m :: ts)
    (hh : engineHolds s = false) : step s = engineStep s := by
  simp [step, takeTurn, lineTurn, h, hh]

/-- The move made in a step is that of the turn at the head of the schedule. -/
theorem turns_of_moveMade {s : State} {m : HostMove} (h : moveMade s = some m) :
    ∃ ts, s.turns = .host m :: ts ∨ s.turns = .line m :: ts := by
  unfold moveMade at h
  split at h
  case h_1 m' ts ht =>
    obtain ⟨-, rfl⟩ : moveEnabled m' s = true ∧ m' = m := by simpa using h
    exact ⟨ts, .inl ht⟩
  case h_2 m' ts ht =>
    obtain ⟨-, rfl⟩ : (engineHolds s = true ∧ moveEnabled m' s = true) ∧ m' = m := by simpa using h
    exact ⟨ts, .inr ht⟩
  case h_3 => cases h

/-! ### What an engine step can do, said once -/

/-- The engine's moves (R44), one constructor for each way a step rule can change the state. -/
inductive EngineMove (s : State) : State → Prop
  | hold : EngineMove s s
  | fetch (t : Token) (hp : s.phase = .encFetch) (ht : s.pin = some t) :
      EngineMove s ((((s.takePin t).noteEnd t).setCur (fetchedByte t)).setPhase .encBit)
  | outOfSpace (hp : s.phase = .encBit) (hx : exhausted s = true) : EngineMove s s.raiseOutOfSpace
  | writeBit (v : Byte) (hp : s.phase = .encBit) (hx : exhausted s = false)
      (hv : Memory.read s.mem (cellAddress s).toNat = some v) :
      EngineMove s ((((s.setMem (memAfterBit s v)).advancePos).advanceMask).setPhase (phaseAfterBit s))
  | respond (hp : s.phase = .resp) (hr : s.rsp = none) :
      EngineMove s (((endEncLoan s).putRsp (responseWord s.rc s.res)).setPhase (phaseAfterResponse s))
  | drain (t : Token) (hp : s.phase = .encDrain) (ht : s.pin = some t) :
      EngineMove s (((s.takePin t).noteEnd t).setPhase (if tokenIsEnd t then .idle else .encDrain))
  | cellsUsedUp (hp : s.phase = .decBit) (hx : exhausted s = true) : EngineMove s (s.setPhase .decEnd)
  | gatherBit (v : Byte) (hp : s.phase = .decBit) (hx : exhausted s = false)
      (hv : Memory.read s.mem (cellAddress s).toNat = some v) :
      EngineMove s
        ((((s.setCur (gathered s v)).advancePos).advanceMask).setPhase (phaseAfterGather s (gathered s v)))
  | emit (hp : s.phase = .decEmit) (hd : s.dout = none) :
      EngineMove s (((s.putDout (dataToken s.cur)).setCur 0).setPhase .decBit)
  | putEnd (hp : s.phase = .decEnd) (hd : s.dout = none) :
      EngineMove s (((s.endLoan).putDout endToken).setPhase .idle)

/-- Every engine step that answers is one of the engine's moves. -/
theorem engineStep_move {s s' : State} (h : engineStep s = .next s') : EngineMove s s' := by
  unfold engineStep at h
  split at h
  case h_1 => exact next_inj h ▸ .hold
  case h_2 hp =>
    obtain ⟨-, rfl⟩ | ⟨t, ht, rfl⟩ := encFetch_cases h
    exacts [.hold, .fetch t hp ht]
  case h_3 hp =>
    obtain ⟨hx, rfl⟩ | ⟨hx, v, hv, rfl⟩ := encBit_cases h
    exacts [.outOfSpace hp hx, .writeBit v hp hx hv]
  case h_4 hp =>
    obtain ⟨-, rfl⟩ | ⟨hr, rfl⟩ := respStep_cases h
    exacts [.hold, .respond hp hr]
  case h_5 hp =>
    obtain ⟨-, rfl⟩ | ⟨t, ht, rfl⟩ := encDrain_cases h
    exacts [.hold, .drain t hp ht]
  case h_6 hp =>
    obtain ⟨hx, rfl⟩ | ⟨hx, v, hv, rfl⟩ := decBit_cases h
    exacts [.cellsUsedUp hp hx, .gatherBit v hp hx hv]
  case h_7 hp =>
    obtain ⟨-, rfl⟩ | ⟨hd, rfl⟩ := decEmit_cases h
    exacts [.hold, .emit hp hd]
  case h_8 hp =>
    obtain ⟨-, rfl⟩ | ⟨hd, rfl⟩ := decEnd_cases h
    exacts [.hold, .putEnd hp hd]

/-! ### The phase a step chooses -/

theorem phaseAfterBit_eq_iff (s : State) (p : Phase) :
    phaseAfterBit s = p ↔
      (p = .encBit ∧ s.mask ≠ 1) ∨ (p = .encFetch ∧ s.mask = 1 ∧ s.cur ≠ 0) ∨
        (p = .resp ∧ s.mask = 1 ∧ s.cur = 0) := by
  by_cases hm : s.mask = 1#8 <;> by_cases hc : s.cur = 0#8 <;> simp [phaseAfterBit, lastBit, hm, hc] <;> exact eq_comm

theorem phaseAfterGather_eq_iff (s : State) (c : Byte) (p : Phase) :
    phaseAfterGather s c = p ↔
      (p = .decBit ∧ s.mask ≠ 1) ∨ (p = .decEmit ∧ s.mask = 1 ∧ c ≠ 0) ∨ (p = .decEnd ∧ s.mask = 1 ∧ c = 0) := by
  by_cases hm : s.mask = 1#8 <;> by_cases hc : c = 0#8 <;> simp [phaseAfterGather, lastBit, hm, hc] <;> exact eq_comm

theorem phaseAfterResponse_eq_iff (s : State) (p : Phase) :
    phaseAfterResponse s = p ↔
      (p = .encDrain ∧ s.op = .enc ∧ s.srcEnd = false) ∨ (p = .idle ∧ ¬(s.op = .enc ∧ s.srcEnd = false)) := by
  by_cases h : s.op = .enc ∧ s.srcEnd = false <;> simp [phaseAfterResponse, h] <;> exact eq_comm

end Sys2Proof.Machine

namespace Sys2Proof.Machine

/-! ### The cursor (R31, R32) -/

section Cursor

variable {s : State}

theorem nextCol_lt (hc : s.col < s.r) : nextCol s < s.r := by
  unfold nextCol
  split <;> bv_omega

theorem nextRow_le (hr : s.row < s.h) : nextRow s ≤ s.h := by
  unfold nextRow
  split <;> bv_omega

/-- The cursor reaches row H only by leaving the last column of the last row (R163). -/
theorem nextCol_eq_zero (hr : s.row < s.h) (he : nextRow s = s.h) : nextCol s = 0 := by
  unfold nextRow at he
  unfold nextCol
  split at he
  · exact if_pos ‹_›
  · bv_omega

/-- The position after `advance_pos` is the next one, without overflow (R32). -/
theorem advancePos_position (hc : s.col < s.r) (hr : s.row < s.h) :
    (nextRow s).toNat * s.r.toNat + (nextCol s).toNat = s.row.toNat * s.r.toNat + s.col.toNat + 1 := by
  unfold nextRow nextCol
  split
  · have hrow : (s.row + 1).toNat = s.row.toNat + 1 := by bv_omega
    have hcol : s.col.toNat + 1 = s.r.toNat := by bv_omega
    rw [hrow, Nat.succ_mul, Nat.add_assoc _ s.col.toNat 1, hcol]
    rfl
  · have hcol : (s.col + 1).toNat = s.col.toNat + 1 := by bv_omega
    rw [hcol, Nat.add_assoc]

/-- The cells are used up exactly when the position has reached T. -/
theorem exhausted_iff_position (hrow : s.row ≤ s.h) (hcol : exhausted s = false → s.col < s.r) :
    exhausted s = true ↔ s.h.toNat * s.r.toNat ≤ s.row.toNat * s.r.toNat + s.col.toNat := by
  cases hx : exhausted s with
  | true =>
    refine iff_of_true rfl ?_
    obtain h | h := (exhausted_iff s).1 hx
    · rw [h]
      exact Nat.le_add_right _ _
    · simp [h]
  | false =>
    refine iff_of_false Bool.false_ne_true ?_
    have hlt : s.row.toNat + 1 ≤ s.h.toNat := by
      have := ((exhausted_false_iff s).1 hx).1
      bv_omega
    have hc : s.col.toNat < s.r.toNat := hcol hx
    have hmul := Nat.mul_le_mul_right s.r.toNat hlt
    rw [Nat.succ_mul] at hmul
    omega

end Cursor

/-! ### MASK and CUR -/

/-- The weight `m` and every weight below it, those R46 names for CUR in DEC_BIT. -/
def maskAndBelow (m : Byte) : Byte := m ||| (m - 1)

/-- After a weight other than the last, the next weight and those below it leave out the weight itself. -/
theorem maskAndBelow_nextMask {m : Byte} (h : maskOneHot m = true) (h1 : m ≠ 1) :
    maskAndBelow (nextMask m) = maskAndBelow m &&& maskAndBelow (nextMask m) ∧ m &&& maskAndBelow (nextMask m) = 0 := by
  revert m; decide

theorem maskAndBelow_getLsbD {m : Byte} (h : maskOneHot m = true) :
    ∀ i < 8, 2 ^ i ≤ m.toNat → (maskAndBelow m).getLsbD i = true := by
  revert m; decide

/-- DEC_BIT adds at most the weight MASK to CUR, so the weights below MASK stay 0 (R132). -/
theorem gathered_and_nextMask {s : State} (v : Byte) (hm : maskOneHot s.mask = true) (h1 : s.mask ≠ 1)
    (hc : s.cur &&& maskAndBelow s.mask = 0) : gathered s v &&& maskAndBelow (nextMask s.mask) = 0 := by
  obtain ⟨hsub, hdisj⟩ := maskAndBelow_nextMask hm h1
  have hcur : s.cur &&& maskAndBelow (nextMask s.mask) = 0 := by
    rw [hsub, ← BitVec.and_assoc, hc]
    exact BitVec.zero_and
  unfold gathered
  split
  · rw [BitVec.and_comm, BitVec.and_or_distrib_left, BitVec.and_comm, hcur, BitVec.and_comm, hdisj]
    rfl
  · exact hcur

/-- R46's clause on CUR in DEC_BIT, bit by bit. -/
theorem getLsbD_of_and_maskAndBelow {c m : Byte} (hm : maskOneHot m = true) (hc : c &&& maskAndBelow m = 0) {i : Nat}
    (hi : 2 ^ i ≤ m.toNat) : c.getLsbD i = false := by
  have hi8 : i < 8 := (Nat.pow_lt_pow_iff_right (by decide)).1 (Nat.lt_of_le_of_lt hi m.isLt)
  have hbit := congrArg (·.getLsbD i) hc
  simpa [maskAndBelow_getLsbD hm i hi8 hi] using hbit

theorem maskOneHot_iff (m : Byte) :
    maskOneHot m = true ↔ m = 128 ∨ m = 64 ∨ m = 32 ∨ m = 16 ∨ m = 8 ∨ m = 4 ∨ m = 2 ∨ m = 1 := by
  simp [maskOneHot]

/-! ### The words in the slots -/

theorem wellFormedOutput_dataToken {b : Byte} (h : b ≠ 0) : (dataToken b).wellFormedOutput = true := by
  revert b; decide

theorem wellFormed_responseWord {e : Bool} {v : Wide} (h : e = true → v = 0) :
    (responseWord e v).wellFormed = true := by
  change (!responseErr (responseWord e v) || responseValue (responseWord e v) == 0#64) = true
  rw [responseErr_responseWord, responseValue_responseWord]
  cases e with
  | false => rfl
  | true => simp [h rfl]

/-! ### The invariants, phase by phase -/

/-- The clauses of `Inv` that hold in every phase alike. -/
structure SharedInv (s : State) : Prop where
  mask_oneHot : maskOneHot s.mask = true
  row_bound : s.op = .enc ∨ s.op = .dec → s.row ≤ s.h
  col_inside : s.op = .enc ∨ s.op = .dec → s.row ≠ s.h → s.r ≠ 0 → s.col < s.r
  col_atEnd : s.op = .enc ∨ s.op = .dec → s.row = s.h → s.col = 0
  rc_op : s.rc = true → s.op = .enc
  enc_res : s.op = .enc → s.res = 0
  dout_word : ∀ t, s.dout = some t → t.wellFormedOutput = true
  rsp_word : ∀ w, s.rsp = some w → w.wellFormed = true

/-- The clauses of `Inv` that speak of the phase `p`. -/
@[reducible] def PhaseInv (s : State) : Phase → Prop
  | .idle => True
  | .encFetch => s.op = .enc ∧ s.rc = false ∧ s.srcEnd = false ∧ s.mask = 128
  | .encBit => s.op = .enc ∧ s.rc = false ∧ (s.srcEnd = true → s.cur = 0)
  | .resp => s.op = .cap ∨ s.op = .enc
  | .encDrain => s.op = .enc ∧ s.srcEnd = false
  | .decBit => s.op = .dec ∧ s.cur &&& maskAndBelow s.mask = 0
  | .decEmit => s.op = .dec ∧ s.mask = 128 ∧ s.cur ≠ 0
  | .decEnd => s.op = .dec

section Kept

variable {s s' : State}

theorem Inv.shared (hi : Inv s) : SharedInv s :=
  { hi with
    col_inside := fun hop hh hr => hi.col_inside hop ((exhausted_false_iff s).2 ⟨hh, hr⟩)
    rc_op := fun hrc => (hi.rc_phase hrc).1 }

/-- RC is 0 in every phase in which no error can have been raised. -/
theorem Inv.rc_false (hi : Inv s) (hp : s.phase ≠ .resp ∧ s.phase ≠ .encDrain ∧ s.phase ≠ .idle) : s.rc = false := by
  by_contra hrc
  obtain ⟨-, h⟩ := hi.rc_phase (by simpa using hrc)
  tauto

theorem Inv.phase {p : Phase} (hi : Inv s) (hp : s.phase = p) : PhaseInv s p := by
  cases p with
  | idle => trivial
  | encFetch =>
    exact ⟨hi.enc_op (.inl hp), hi.rc_false (by simp [hp]), hi.fetch_srcEnd (.inl hp), hi.fetch_mask hp⟩
  | encBit => exact ⟨hi.enc_op (.inr (.inl hp)), hi.rc_false (by simp [hp]), hi.bit_srcEnd hp⟩
  | resp => exact hi.resp_op hp
  | encDrain => exact ⟨hi.enc_op (.inr (.inr hp)), hi.fetch_srcEnd (.inr hp)⟩
  | decBit => exact ⟨hi.dec_op (.inl hp), hi.dec_gathered hp⟩
  | decEmit => exact ⟨hi.dec_op (.inr (.inl hp)), hi.emit_mask hp⟩
  | decEnd => exact hi.dec_op (.inr (.inr hp))

/-- Where cells are left, the cursor of an ENC or a DEC stands on one. -/
theorem SharedInv.cursor_inside (hs : SharedInv s) (hop : s.op = .enc ∨ s.op = .dec) (hx : exhausted s = false) :
    s.col < s.r ∧ s.row < s.h :=
  have ⟨hh, hr⟩ := (exhausted_false_iff s).1 hx
  ⟨hs.col_inside hop hh hr, BitVec.lt_of_le_ne (hs.row_bound hop) hh⟩

/-- The shared clauses and those of the present phase are all of `Inv`. -/
theorem SharedInv.inv {p : Phase} (hs : SharedInv s) (hp : s.phase = p) (h : PhaseInv s p) : Inv s := by
  have at_phase : ∀ {q : Phase}, s.phase = q → PhaseInv s q := fun hq => hq ▸ hp ▸ h
  exact { hs with
    col_inside := fun hop hx => (hs.cursor_inside hop hx).1
    fetch_mask := fun hq => have ⟨_, _, _, hm⟩ := at_phase hq; hm
    emit_mask := fun hq => (at_phase hq).2
    bit_inside := by
      rintro (hq | hq)
      exacts [hs.cursor_inside (.inl (at_phase hq).1), hs.cursor_inside (.inr (at_phase hq).1)]
    dec_gathered := fun hq => (at_phase hq).2
    rc_phase := fun hrc => by
      have hop := hs.rc_op hrc
      cases p <;> simp_all
    enc_op := by rintro (hq | hq | hq) <;> exact (at_phase hq).1
    dec_op := by
      rintro (hq | hq | hq)
      exacts [(at_phase hq).1, (at_phase hq).1, at_phase hq]
    resp_op := fun hq => at_phase hq
    fetch_srcEnd := by
      rintro (hq | hq)
      exacts [have ⟨_, _, hsrc, _⟩ := at_phase hq; hsrc, (at_phase hq).2]
    bit_srcEnd := fun hq => have ⟨_, _, hsrc⟩ := at_phase hq; hsrc }

/-! ### The engine keeps the invariants -/

theorem inv_fetch (hi : Inv s) (t : Token) (hp : s.phase = .encFetch) :
    Inv ((((s.takePin t).noteEnd t).setCur (fetchedByte t)).setPhase .encBit) := by
  obtain ⟨hop, hrc, hsrc, -⟩ := hi.phase hp
  exact SharedInv.inv { hi.shared with } rfl ⟨hop, hrc, by simp +contextual [hsrc, fetchedByte]⟩

theorem inv_outOfSpace (hi : Inv s) (hp : s.phase = .encBit) : Inv s.raiseOutOfSpace := by
  obtain ⟨hop, -, -⟩ := hi.phase hp
  exact SharedInv.inv { hi.shared with rc_op := fun _ => hop } rfl (.inr hop)

/-- What both bit steps do to the cursor and to MASK keeps the shared clauses; they differ in memory, CUR and PHASE. -/
theorem SharedInv.bitStep (hs : SharedInv s) (hop : s.op = .enc ∨ s.op = .dec) (hx : exhausted s = false)
    (m : Memory) (c : Byte) (p : Phase) :
    SharedInv { s with mem := m, cur := c, col := nextCol s, row := nextRow s, mask := nextMask s.mask, phase := p } :=
  have ⟨hcol, hrow⟩ := hs.cursor_inside hop hx
  { hs with
    mask_oneHot := nextMask_oneHot hs.mask_oneHot
    row_bound := fun _ => nextRow_le hrow
    col_inside := fun _ _ _ => nextCol_lt hcol
    col_atEnd := fun _ => nextCol_eq_zero hrow }

theorem nextMask_one : nextMask 1 = 128 := rfl

theorem inv_writeBit (hi : Inv s) (v : Byte) (hp : s.phase = .encBit) (hx : exhausted s = false) :
    Inv ((((s.setMem (memAfterBit s v)).advancePos).advanceMask).setPhase (phaseAfterBit s)) := by
  obtain ⟨hop, hrc, hsrc⟩ := hi.phase hp
  have hs := hi.shared.bitStep (.inl hop) hx (memAfterBit s v) s.cur (phaseAfterBit s)
  obtain ⟨hp', -⟩ | ⟨hp', hm, hc⟩ | ⟨hp', -⟩ := (phaseAfterBit_eq_iff s _).1 rfl
  · exact hs.inv hp' ⟨hop, hrc, hsrc⟩
  · exact hs.inv hp' ⟨hop, hrc, by simpa using mt hsrc hc, hm ▸ nextMask_one⟩
  · exact hs.inv hp' (.inr hop)

theorem inv_respond (hi : Inv s) :
    Inv (((endEncLoan s).putRsp (responseWord s.rc s.res)).setPhase (phaseAfterResponse s)) := by
  have hw : (responseWord s.rc s.res).wellFormed = true :=
    wellFormed_responseWord fun hrc => hi.enc_res (hi.shared.rc_op hrc)
  have hs : SharedInv (((endEncLoan s).putRsp (responseWord s.rc s.res)).setPhase (phaseAfterResponse s)) :=
    { hi.shared with rsp_word := by rintro w ⟨⟩; exact hw }
  obtain ⟨hp', hop, hsrc⟩ | ⟨hp', -⟩ := (phaseAfterResponse_eq_iff s _).1 rfl
  · exact hs.inv hp' ⟨hop, hsrc⟩
  · exact hs.inv hp' trivial

theorem inv_drain (hi : Inv s) (t : Token) (hp : s.phase = .encDrain) :
    Inv (((s.takePin t).noteEnd t).setPhase (if tokenIsEnd t then .idle else .encDrain)) := by
  obtain ⟨hop, hsrc⟩ := hi.phase hp
  cases ht : tokenIsEnd t with
  | false => exact SharedInv.inv { hi.shared with } rfl ⟨hop, by simp [hsrc, ht]⟩
  | true => exact SharedInv.inv { hi.shared with } rfl trivial

theorem inv_cellsUsedUp (hi : Inv s) (hp : s.phase = .decBit) : Inv (s.setPhase .decEnd) :=
  SharedInv.inv { hi.shared with } rfl (hi.phase hp).1

theorem inv_gatherBit (hi : Inv s) (v : Byte) (hp : s.phase = .decBit) (hx : exhausted s = false) :
    Inv ((((s.setCur (gathered s v)).advancePos).advanceMask).setPhase (phaseAfterGather s (gathered s v))) := by
  obtain ⟨hop, hcur⟩ := hi.phase hp
  have hs := hi.shared.bitStep (.inr hop) hx s.mem (gathered s v) (phaseAfterGather s (gathered s v))
  obtain ⟨hp', hm⟩ | ⟨hp', hm, hc⟩ | ⟨hp', -⟩ := (phaseAfterGather_eq_iff s (gathered s v) _).1 rfl
  · exact hs.inv hp' ⟨hop, gathered_and_nextMask v hi.mask_oneHot hm hcur⟩
  · exact hs.inv hp' ⟨hop, hm ▸ nextMask_one, hc⟩
  · exact hs.inv hp' hop

theorem inv_emit (hi : Inv s) (hp : s.phase = .decEmit) :
    Inv (((s.putDout (dataToken s.cur)).setCur 0).setPhase .decBit) := by
  obtain ⟨hop, -, hcur⟩ := hi.phase hp
  have hw := wellFormedOutput_dataToken hcur
  exact SharedInv.inv { hi.shared with dout_word := by rintro t ⟨⟩; exact hw } rfl ⟨hop, BitVec.zero_and⟩

theorem inv_putEnd (hi : Inv s) : Inv (((s.endLoan).putDout endToken).setPhase .idle) :=
  SharedInv.inv { hi.shared with dout_word := by rintro t ⟨⟩; rfl } rfl trivial

/-- Every move of the engine keeps the invariants (R46). -/
theorem EngineMove.keeps_inv (hm : EngineMove s s') (hi : Inv s) : Inv s' := by
  cases hm with
  | hold => exact hi
  | fetch t hp ht => exact inv_fetch hi t hp
  | outOfSpace hp hx => exact inv_outOfSpace hi hp
  | writeBit v hp hx hv => exact inv_writeBit hi v hp hx
  | respond hp hr => exact inv_respond hi
  | drain t hp ht => exact inv_drain hi t hp
  | cellsUsedUp hp hx => exact inv_cellsUsedUp hi hp
  | gatherBit v hp hx hv => exact inv_gatherBit hi v hp hx
  | emit hp hd => exact inv_emit hi hp
  | putEnd hp hd => exact inv_putEnd hi

/-! ### The host's moves and RESET keep the invariants -/

theorem inv_reset : Inv State.reset :=
  SharedInv.inv
    { mask_oneHot := rfl, row_bound := nofun, col_inside := nofun, col_atEnd := nofun, rc_op := nofun,
      enc_res := nofun, dout_word := nofun, rsp_word := nofun }
    rfl trivial

theorem inv_issue_cap (hi : Inv s) (h r : Word) :
    Inv (((s.latch .cap h r).setRes (capacity h r)).setPhase .resp) :=
  SharedInv.inv
    { hi.shared with row_bound := nofun, col_inside := nofun, col_atEnd := nofun, rc_op := nofun, enc_res := nofun }
    rfl (.inl rfl)

/-- What ENC and DEC share at issue: the fresh cursor stands in the first cell, where there is one. -/
theorem SharedInv.beginBitCommand (hs : SharedInv s) (op : Opcode) (h r : Word) :
    SharedInv (s.beginBitCommand op h r) :=
  { hs with
    mask_oneHot := rfl
    row_bound := fun _ => Nat.zero_le _
    col_inside := fun _ _ hr => BitVec.lt_of_le_ne (Nat.zero_le _) (Ne.symm hr)
    col_atEnd := fun _ _ => rfl
    rc_op := nofun
    enc_res := fun _ => rfl }

theorem inv_issue_enc (hi : Inv s) (h r : Word) :
    Inv (((s.beginBitCommand .enc h r).openTakes).setPhase .encFetch) :=
  SharedInv.inv { hi.shared.beginBitCommand .enc h r with } rfl ⟨rfl, rfl, rfl, rfl⟩

theorem inv_issue_dec (hi : Inv s) (h r : Word) : Inv ((s.beginBitCommand .dec h r).setPhase .decBit) :=
  SharedInv.inv { hi.shared.beginBitCommand .dec h r with } rfl ⟨rfl, BitVec.zero_and⟩

/-- The issue of every command keeps the invariants. -/
theorem exec_keeps_inv {i : Instr} (h : exec i s = .next s') (hi : Inv s) : Inv s' := by
  obtain rfl | ⟨-, ⟨a, b, -, rfl⟩ | ⟨a, b, -, rfl⟩ | ⟨a, b, -, rfl⟩⟩ := exec_cases h
  · exact hi
  · exact inv_issue_cap hi a b
  · exact inv_issue_enc hi a b
  · exact inv_issue_dec hi a b

/-- Every host move keeps the invariants: those on memory and PIN touch nothing they speak of, a pop empties a slot, and
RESET gives the values of R43. -/
theorem hostMove_keeps_inv {m : HostMove} (h : hostMove m s = .next s') (hi : Inv s) : Inv s' := by
  obtain rfl | ⟨w, -, hw⟩ | ⟨t, -, -, rfl⟩ | ⟨t, -, -, rfl⟩ | ⟨w, -, -, rfl⟩ | ⟨-, rfl⟩ | ⟨a, v, -, -, -, rfl⟩ |
    ⟨a, v, -, -, rfl⟩ | ⟨l, -, -, rfl⟩ := hostMove_cases h
  · exact hi
  · exact exec_keeps_inv hw hi
  · exact { hi with }
  · exact { hi with dout_word := nofun }
  · exact { hi with rsp_word := nofun }
  · exact { inv_reset with }
  · exact { hi with }
  · exact { hi with }
  · exact { hi with }

/-- Every turn keeps the invariants: the engine's by its moves, the host's by its own. -/
theorem step_keeps_inv (h : step s = .next s') (hi : Inv s) : Inv s' := by
  obtain rfl | ⟨ts, -, he | ⟨m, -, hm⟩⟩ := step_cases h
  · exact hi
  · exact (engineStep_move he).keeps_inv { hi with }
  · exact hostMove_keeps_inv hm { hi with }

/-- What every step keeps holds at the end of a run. -/
theorem run_keeps {P : State → Prop} (hstep : ∀ {a b : State}, step a = .next b → P a → P b) {k : Nat}
    (h : run k s = .next s') (hs : P s) : P s' := by
  induction k generalizing s with
  | zero => exact next_inj h ▸ hs
  | succ k ih =>
    simp only [run] at h
    split at h
    case h_1 t ht => exact ih h (hstep ht hs)
    case h_2 => cases h
    case h_3 => cases h

theorem Reachable.inv (h : Reachable s) : Inv s := by
  obtain ⟨k, ts, hrun⟩ := h
  exact run_keeps step_keeps_inv hrun { inv_reset with }

end Kept

/-- Settles O33, by the engine's moves and the host's, each of which keeps the invariants. -/
theorem everyStepKeepsTheInvariants : Obligations.EveryStepKeepsTheInvariants :=
  fun _ _ hi h => step_keeps_inv h hi

/-- Settles O35: the invariants hold at reset and along every run from it, and R46's clauses are read off from them. -/
theorem reachableStatesMeetTheInvariants : Obligations.ReachableStatesMeetTheInvariants := by
  intro s hs
  have hi := hs.inv
  refine ⟨(maskOneHot_iff _).1 hi.mask_oneHot, hi.fetch_mask, hi.emit_mask, fun hp hx => ?_, hi.row_bound,
    fun hp i => getLsbD_of_and_maskAndBelow hi.mask_oneHot (hi.dec_gathered hp), hi.rc_phase⟩
  exact hi.bit_inside hp ((exhausted_false_iff s).2 (not_or.1 hx))

end Sys2Proof.Machine

namespace Sys2Proof.Machine

/-! ### The capacity and the program that asks for it -/

theorem capacity_toNat (h r : Word) : (capacity h r).toNat = h.toNat * r.toNat / 8 := by
  rw [capacity, BitVec.toNat_ushiftRight, totalCells_toNat, Nat.shiftRight_eq_div_pow]

theorem run_succ {s t : State} {k : Nat} {o : Result} (h : step s = .next t) (ho : run k t = o) :
    run (k + 1) s = o := by
  simp only [run, h, ho]

section CapProgram

variable {s : State} {m : HostMove} {ts : List Turn}

theorem step_line_cap {h r : Word} (ht : s.turns = .line (.issue (encode (.cap h r))) :: ts) (hp : s.phase = .idle) :
    step s = .next ((((s.setTurns ts).latch .cap h r).setRes (capacity h r)).setPhase .resp) := by
  rw [step_line_issue ht hp, decodeWord_encode]
  exact exec_cap_idle h r hp

/-- A line behind a response that is still to be put lets the engine put it. -/
theorem step_line_respond (ht : s.turns = .line m :: ts) (hp : s.phase = .resp) (hr : s.rsp = none) :
    step s = .next (((endEncLoan s).putRsp (responseWord s.rc s.res)).setPhase (phaseAfterResponse s)) := by
  rw [step_line_engine ht (by simp [engineHolds, hp, hr]), engineStep_resp hp hr]

theorem step_line_popRsp {w : Response} (ht : s.turns = .line .popRsp :: ts) (hp : s.phase = .idle)
    (hw : s.rsp = some w) : step s = .next ((s.setTurns ts).takeRsp w) := by
  rw [step_line_move ht (engineHolds_of_idle hp) (by simp [moveEnabled, hw])]
  simp [hostMove, popRspMove, hw]

end CapProgram

/-! ### The transition graph (R33) -/

section Graph

variable {s s' : State}

/-- Only the edges that leave IDLE read the schedule. -/
theorem phaseEdge_setTurns (ts : List Turn) (p : Phase) (hp : s.phase ≠ .idle) :
    phaseEdge (s.setTurns ts) p = phaseEdge s p := by
  cases hq : s.phase with
  | idle => exact absurd hq hp
  | _ => cases p <;> simp only [phaseEdge, setTurns_phase, hq] <;> rfl

/-- A move of the engine keeps PHASE or follows an edge (R33, R44). -/
theorem EngineMove.phase_edge (hm : EngineMove s s') : s'.phase = s.phase ∨ phaseEdge s s'.phase = true := by
  cases hm with
  | hold => exact .inl rfl
  | fetch t hp ht => exact .inr (by simp [phaseEdge, hp, ht])
  | outOfSpace hp hx => exact .inr (by simp [phaseEdge, hp, hx])
  | writeBit v hp hx hv =>
    rw [setPhase_phase]
    obtain ⟨hp', -⟩ | ⟨hp', hm, hc⟩ | ⟨hp', hm, hc⟩ := (phaseAfterBit_eq_iff s _).1 rfl
    · exact .inl (hp'.trans hp.symm)
    · exact .inr (by simpa [phaseEdge, hp, hp', hx, lastBit, hm] using hc)
    · exact .inr (by simp [phaseEdge, hp, hp', lastBit, hm, hc])
  | respond hp hr =>
    rw [setPhase_phase]
    obtain ⟨hp', hop, hsrc⟩ | ⟨hp', hn⟩ := (phaseAfterResponse_eq_iff s _).1 rfl
    · exact .inr (by simp [phaseEdge, hp, hp', hop, hsrc])
    · exact .inr (by simpa [phaseEdge, hp, hp', imp_iff_not_or] using hn)
  | drain t hp ht =>
    cases he : tokenIsEnd t with
    | false => exact .inl hp.symm
    | true => exact .inr (by simp [phaseEdge, hp, ht, he])
  | cellsUsedUp hp hx => exact .inr (by simp [phaseEdge, hp, hx])
  | gatherBit v hp hx hv =>
    have hg : gatheredNext s = some (gathered s v) := by rw [gatheredNext, hv]; rfl
    rw [setPhase_phase]
    obtain ⟨hp', -⟩ | ⟨hp', hm, hc⟩ | ⟨hp', hm, hc⟩ := (phaseAfterGather_eq_iff s (gathered s v) _).1 rfl
    · exact .inl (hp'.trans hp.symm)
    · exact .inr (by simpa [phaseEdge, hp, hp', hx, lastBit, hm, hg] using hc)
    · exact .inr (by rw [hp']; simp [phaseEdge, hp, lastBit, hm, hg, hc])
  | emit hp hd => exact .inr (by simp [phaseEdge, hp, hd])
  | putEnd hp hd => exact .inr (by simp [phaseEdge, hp, hd])

/-- An accepted command leaves IDLE along the edge of its opcode. -/
theorem exec_phase_edge {w : CommandWord} {ts : List Turn} (h : exec (decodeWord w) (s.setTurns ts) = .next s')
    (hn : nextIssued s = some (opcodeOf (opField w))) : s'.phase = s.phase ∨ phaseEdge s s'.phase = true := by
  rw [← opcodeOfInstr_decodeWord] at hn
  obtain rfl | ⟨hp, ⟨a, b, hw, rfl⟩ | ⟨a, b, hw, rfl⟩ | ⟨a, b, hw, rfl⟩⟩ := exec_cases h
  · exact .inl rfl
  all_goals
    rw [hw] at hn
    rw [setTurns_phase] at hp
    exact .inr (by simp [phaseEdge, hp, hn, opcodeOfInstr])

/-- Only RESET and the issue of a command can change PHASE among the host's moves. -/
theorem hostMove_phase {m : HostMove} (h : hostMove m s = .next s') :
    s'.phase = s.phase ∨ (m = .reset ∧ s'.phase = .idle) ∨ ∃ w, m = .issue w ∧ exec (decodeWord w) s = .next s' := by
  obtain rfl | ⟨w, rfl, hw⟩ | ⟨t, -, -, rfl⟩ | ⟨t, -, -, rfl⟩ | ⟨w, -, -, rfl⟩ | ⟨rfl, rfl⟩ | ⟨a, v, -, -, -, rfl⟩ |
    ⟨a, v, -, -, rfl⟩ | ⟨l, -, -, rfl⟩ := hostMove_cases h
  case inr.inl => exact .inr (.inr ⟨w, rfl, hw⟩)
  case inr.inr.inr.inr.inr.inl => exact .inr (.inl ⟨rfl, rfl⟩)
  all_goals exact .inl rfl

/-- PHASE under a turn of the engine. -/
theorem phase_of_engineStep_setTurns {ts : List Turn} (h : engineStep (s.setTurns ts) = .next s') :
    s'.phase = s.phase ∨ phaseEdge s s'.phase = true := by
  by_cases hp : s.phase = .idle
  · rw [engineStep_of_engineHolds (engineHolds_of_idle (s := s.setTurns ts) hp)] at h
    exact .inl (next_inj h ▸ rfl)
  · exact phaseEdge_setTurns ts s'.phase hp ▸ (engineStep_move h).phase_edge

/-- PHASE under a turn in which the host makes a move. -/
theorem phase_of_moveMade {m : HostMove} (hm : moveMade s = some m) (h : step s = .next s') :
    s'.phase = s.phase ∨ phaseEdge s s'.phase = true ∨
      (s'.phase = .idle ∧ ∃ ts, s.turns = .host .reset :: ts ∨ s.turns = .line .reset :: ts) := by
  obtain ⟨ts, hts⟩ := turns_of_moveMade hm
  rw [step_of_moveMade hm] at h
  obtain hsame | ⟨rfl, hidle⟩ | ⟨w, rfl, hw⟩ := hostMove_phase h
  · exact .inl hsame
  · exact .inr (.inr ⟨hidle, ts, hts⟩)
  · have hn : nextIssued s = some (opcodeOf (opField w)) := by
      obtain hts | hts := hts <;> simp [nextIssued, hts]
    exact (exec_phase_edge hw hn).imp_right .inl

end Graph

/-! ### The statements -/

/-- Settles O13: the issue, the RESP step and the pop, in this order. -/
theorem capProgramDeliversOneResponse : Obligations.CapProgramDeliversOneResponse := by
  intro s h r ts hp hr
  refine ⟨_, run_succ (step_line_cap rfl hp) (run_succ (step_line_respond rfl rfl hr)
    (run_succ (step_line_popRsp rfl rfl rfl) rfl)), rfl, rfl, rfl, rfl, rfl, rfl, rfl, rfl, rfl, rfl, ?_⟩
  refine ⟨_, rfl, responseErr_responseWord _ _, ?_⟩
  rw [responseValue_responseWord]
  exact capacity_toNat h r

/-- Settles O19: a hold is the engine's step wherever a slot condition fails, and RESP's choice of the next phase gives
its three cases. -/
theorem respStepAndHolds : Obligations.RespStepAndHolds := by
  refine ⟨fun s => engineStep_of_engineHolds, fun s hp => engineStep_of_engineHolds (engineHolds_of_idle hp), ?_⟩
  intro s hp hr
  rw [engineStep_resp hp hr]
  refine ⟨fun hop hsrc => ?_, fun hop hsrc => ?_, fun hop => ?_⟩ <;>
    simp [endEncLoan, State.putRsp, State.setPhase, phaseAfterResponse, responseWord, *]

/-- Settles O31: a turn of the engine follows R33's edges, a command issued leaves IDLE along its own, and every other
move of the host but RESET leaves PHASE alone. -/
theorem phaseFollowsTheTransitionGraph : Obligations.PhaseFollowsTheTransitionGraph := by
  intro s s' h
  cases he : engineActs s with
  | true =>
    obtain ⟨ts, -, hstep⟩ := step_of_engineActs he
    exact (phase_of_engineStep_setTurns (hstep ▸ h)).imp_right .inl
  | false =>
    cases hm : moveMade s with
    | none =>
      obtain ⟨ts, -, hstep⟩ := step_of_neither he hm
      exact .inl (next_inj (hstep ▸ h) ▸ rfl)
    | some m => exact phase_of_moveMade hm h

/-- Settles O37, by the position's arithmetic: one step on inside the buffer, T reached exactly when `exhausted` holds. -/
theorem cursorVisitsCellsInOrder : Obligations.CursorVisitsCellsInOrder := by
  refine ⟨fun s hc hr => ⟨fun hl => ?_, fun hl => ?_, advancePos_position hc hr, .inr (nextCol_lt hc), nextRow_le hr⟩,
    fun s => exhausted_iff_position, fun s => rfl⟩
  · rw [State.advancePos, nextCol, nextRow, if_pos hl, if_pos hl]
  · rw [State.advancePos, nextCol, nextRow, if_neg hl, if_neg hl]

/-- Settles O39: five of the engine's moves take or fill one slot each, in their own phase, and the others touch none. -/
theorem engineMovesSlotsOnlyWhereAllowed : Obligations.EngineMovesSlotsOnlyWhereAllowed := by
  intro s s' h
  cases engineStep_move h with
  | fetch t hp ht => exact ⟨.inr ⟨rfl, .inl hp⟩, .inl rfl, .inl rfl, rfl, rfl, rfl, rfl⟩
  | drain t hp ht => exact ⟨.inr ⟨rfl, .inr hp⟩, .inl rfl, .inl rfl, rfl, rfl, rfl, rfl⟩
  | respond hp hr => exact ⟨.inl rfl, .inl rfl, .inr ⟨hr, hp⟩, rfl, rfl, rfl, rfl⟩
  | emit hp hd => exact ⟨.inl rfl, .inr ⟨hd, .inl hp⟩, .inl rfl, rfl, rfl, rfl, rfl⟩
  | putEnd hp hd => exact ⟨.inl rfl, .inr ⟨hd, .inr hp⟩, .inl rfl, rfl, rfl, rfl, rfl⟩
  | _ => exact ⟨.inl rfl, .inl rfl, .inl rfl, rfl, rfl, rfl, rfl⟩

/-- Settles O5: the turn's word is decoded as the command it is written for, and its issue is the step. -/
theorem stepRunsTheDecodedCommand : Obligations.StepRunsTheDecodedCommand := by
  intro s w i ts hi
  obtain rfl := eq_decodeWord hi
  refine ⟨fun ht => step_host_turn ht, fun ht hp => ?_, fun nbits => ?_⟩
  · exact step_line_issue ht hp
  · rw [State.withFetchWord, if_pos w.isLt, BitVec.ofNat_toNat, BitVec.setWidth_eq]
    rfl

/-- Settles O6: a busy block answers a command word with the state as it is. -/
theorem busyBlockTakesNoCommand : Obligations.BusyBlockTakesNoCommand := by
  intro s w ts
  refine ⟨cmdReady_iff s, fun hp ht => ?_⟩
  rw [step_host_turn ht]
  exact exec_busy (decodeWord w) hp

/-- Settles O10: ENC and DEC write every register, and CAP every register but the cursor's and CUR. -/
theorem issueKeepsNothingOfTheLastCommand : Obligations.IssueKeepsNothingOfTheLastCommand := by
  intro a b h r ha hb hpin hdout hrsp hmem hturns hhost
  refine ⟨?_, ?_, _, _, exec_cap_idle h r ha, exec_cap_idle h r hb, ?_⟩
  · rw [exec_enc_idle h r ha, exec_enc_idle h r hb]
    simp [State.beginBitCommand, State.latch, State.freshCursor, State.setCur, State.setRes, State.openTakes,
      State.setPhase, hpin, hdout, hrsp, hmem, hturns, hhost]
  · rw [exec_dec_idle h r ha, exec_dec_idle h r hb]
    simp [State.beginBitCommand, State.latch, State.freshCursor, State.setCur, State.setRes,
      State.setPhase, hpin, hdout, hrsp, hmem, hturns, hhost]
  · simp [State.latch, State.setRes, State.setPhase, hpin, hdout, hrsp, hmem, hturns, hhost]

/-- Settles O25: each move is its slot's case of the condition R45 gives it. -/
theorem slotMovesHappenWhenEnabled : Obligations.SlotMovesHappenWhenEnabled := by
  intro s t w
  refine ⟨fun hq => ?_, fun hq => ?_, fun hq => ?_, fun hq => ?_, fun hq => ?_, fun hq => ?_⟩
  · rw [hostMove, pushMove, hq]; rfl
  · exact hostMove_disabled (Option.isNone_eq_false_iff.2 (Option.isSome_iff_ne_none.2 hq))
  · rw [hostMove, popDoutMove, hq]; rfl
  · exact hostMove_disabled (by simp [moveEnabled, hq])
  · rw [hostMove, popRspMove, hq]; rfl
  · exact hostMove_disabled (by simp [moveEnabled, hq])

/-- Settles O32: no command is in progress, no slot is full, and no memory is attached. -/
theorem resetMeetsTheInvariants : Obligations.ResetMeetsTheInvariants :=
  ⟨inv_reset, .nil, nofun⟩

end Sys2Proof.Machine

/-! PROOFS. The statements about 20_memory.md: the ownership rule of R52, the host's accesses to the buffer, the cells an
engine step can reach (R65), what it can do to the memory (R56), and the canonical form. -/

namespace Sys2Proof.Machine

/-! ### The loan and the ownership rule (R52) -/

theorem lentToEnc_iff (s : State) :
    lentToEnc s = true ↔ s.phase = .encFetch ∨ s.phase = .encBit ∨ (s.phase = .resp ∧ s.op = .enc) := by
  simp [lentToEnc, or_assoc]

theorem lentToDec_iff (s : State) :
    lentToDec s = true ↔ s.phase = .decBit ∨ s.phase = .decEmit ∨ s.phase = .decEnd := by
  simp [lentToDec, or_assoc]

/-- A cell is inside the buffer when its address is below T (R50). -/
theorem inBuffer_iff (s : State) (a : Wide) : inBuffer s a = true ↔ a.toNat < s.h.toNat * s.r.toNat := by
  rw [← totalCells_toNat, ← BitVec.lt_def]
  exact decide_eq_true_iff

theorem hostMayRead_iff (s : State) (a : Wide) :
    hostMayRead s a = true ↔ ¬(lentToEnc s = true ∧ inBuffer s a = true) := by
  rw [hostMayRead, Bool.not_eq_true', ← Bool.not_eq_true, Bool.and_eq_true]

theorem hostMayWrite_iff (s : State) (a : Wide) :
    hostMayWrite s a = true ↔ ¬((lentToEnc s = true ∨ lentToDec s = true) ∧ inBuffer s a = true) := by
  rw [hostMayWrite, Bool.not_eq_true', ← Bool.not_eq_true, Bool.and_eq_true, Bool.or_eq_true]

theorem hostMayLend_iff (s : State) : hostMayLend s = true ↔ ¬(lentToEnc s = true ∨ lentToDec s = true) := by
  rw [hostMayLend, Bool.not_eq_true', ← Bool.not_eq_true, Bool.or_eq_true]

/-! ### The host's moves on the memory (R45, R53) -/

section HostAccess

variable {s s' : State} {a : Wide}

theorem readCell_attached {x : Byte} (h : hostMayRead s a = true) (hx : Memory.read s.mem a.toNat = some x) :
    hostMove (.readCell a) s = .next (s.recordRead x) := by
  simp [hostMove, readCellMove, h, hx]

theorem readCell_unattached (h : hostMayRead s a = true) (hx : Memory.read s.mem a.toNat = none) :
    hostMove (.readCell a) s = .fault .hostReadUnattached := by
  simp [hostMove, readCellMove, h, hx]

theorem readCell_refused (h : ¬hostMayRead s a = true) : hostMove (.readCell a) s = .refused .bufferOnLoan :=
  if_neg h

theorem writeCell_allowed (v : Byte) (h : hostMayWrite s a = true) :
    hostMove (.writeCell a v) s = .next (s.storeCell a.toNat v) :=
  if_pos h

theorem writeCell_refused (v : Byte) (h : ¬hostMayWrite s a = true) :
    hostMove (.writeCell a v) s = .refused .bufferOnLoan :=
  if_neg h

theorem lend_allowed (l : List Byte) (h : hostMayLend s = true) :
    hostMove (.lend l) s = .next (s.setMem (Memory.ofBytes 0 l)) :=
  if_pos h

theorem lend_refused (l : List Byte) (h : ¬hostMayLend s = true) : hostMove (.lend l) s = .refused .bufferOnLoan :=
  if_neg h

/-- The issue of a command touches neither the memory nor the snapshots of it. -/
theorem exec_mem_loans {i : Instr} (h : exec i s = .next s') : s'.mem = s.mem ∧ s'.host.loans = s.host.loans := by
  obtain rfl | ⟨-, ⟨a, b, -, rfl⟩ | ⟨a, b, -, rfl⟩ | ⟨a, b, -, rfl⟩⟩ := exec_cases h <;> exact ⟨rfl, rfl⟩

end HostAccess

/-! ### The engine and the memory -/

section EngineMemory

variable {s s' : State}

/-- Only a bit of an ENC is written to the memory (R56). -/
theorem EngineMove.mem_cases (hm : EngineMove s s') :
    s'.mem = s.mem ∨
    (s.phase = .encBit ∧ exhausted s = false ∧
      ∃ v, Memory.read s.mem (cellAddress s).toNat = some v ∧ s'.mem = memAfterBit s v) := by
  cases hm with
  | writeBit v hp hx hv => exact .inr ⟨hp, hx, v, hv, rfl⟩
  | _ => exact .inl rfl

/-- A snapshot the engine adds is one of the memory as it stands (R62). -/
theorem EngineMove.loans_cases (hm : EngineMove s s') :
    s'.host.loans = s.host.loans ∨ s'.host.loans = s.mem :: s.host.loans := by
  cases hm with
  | respond hp hr =>
    by_cases hop : s.op = .enc
    · exact .inr (if_pos hop)
    · exact .inl (if_neg hop)
  | putEnd hp hd => exact .inr rfl
  | _ => exact .inl rfl

/-- The cell address of a cursor that stands in the buffer is below T (R65). -/
theorem cellAddress_lt_of_inside (hc : s.col < s.r) (hr : s.row < s.h) :
    (cellAddress s).toNat < s.h.toNat * s.r.toNat := by
  have hrow : (s.row.toNat + 1) * s.r.toNat ≤ s.h.toNat * s.r.toNat := Nat.mul_le_mul_right _ hr
  have hcol : s.col.toNat < s.r.toNat := hc
  rw [Nat.succ_mul] at hrow
  rw [cellAddress, cellAddressAt_toNat]
  omega

theorem Inv.cellAddress_lt (hi : Inv s) (hp : s.phase = .encBit ∨ s.phase = .decBit) (hx : exhausted s = false) :
    (cellAddress s).toNat < s.h.toNat * s.r.toNat :=
  have ⟨hcol, hrow⟩ := hi.bit_inside hp hx
  cellAddress_lt_of_inside hcol hrow

/-- The engine leaves the cells at and above T as they are (R65). -/
theorem EngineMove.read_outside (hm : EngineMove s s') (hi : Inv s) {a : Nat} (ha : s.h.toNat * s.r.toNat ≤ a) :
    Memory.read s'.mem a = Memory.read s.mem a := by
  obtain hmem | ⟨hp, hx, v, hv, hmem⟩ := hm.mem_cases
  · rw [hmem]
  · have hlt := hi.cellAddress_lt (.inl hp) hx
    rw [hmem, memAfterBit_read s hv, if_neg (by omega)]

/-- A bit step whose cell is missing is refused. -/
theorem engineStep_missing_cell (hp : s.phase = .encBit ∨ s.phase = .decBit) (hx : exhausted s = false)
    (hv : Memory.read s.mem (cellAddress s).toNat = none) : engineStep s = .refused .cellNotAttached := by
  obtain hp | hp := hp
  · simp [engineStep, hp, encBit, hx, hv]
  · simp [engineStep, hp, decBit, hx, hv]

/-- A missing cell is all that can stop the engine: every other step rule answers a next state (R44). -/
theorem engineStep_answers (hcell : s.phase = .encBit ∨ s.phase = .decBit → exhausted s = false →
      ∃ v, Memory.read s.mem (cellAddress s).toNat = some v) : ∃ s', engineStep s = .next s' := by
  unfold engineStep
  cases hp : s.phase with
  | idle => exact ⟨_, rfl⟩
  | encFetch => cases hq : s.pin <;> simp [encFetch, hold, hq]
  | resp => cases hq : s.rsp <;> simp [respStep, hold, hq]
  | encDrain => cases hq : s.pin <;> simp [encDrain, hold, hq]
  | decEmit => cases hq : s.dout <;> simp [decEmit, hold, hq]
  | decEnd => cases hq : s.dout <;> simp [decEnd, hold, hq]
  | encBit =>
    cases hx : exhausted s with
    | true => simp [encBit, hx]
    | false =>
      obtain ⟨v, hv⟩ := hcell (.inl hp) hx
      simp [encBit, hx, hv]
  | decBit =>
    cases hx : exhausted s with
    | true => simp [decBit, hx]
    | false =>
      obtain ⟨v, hv⟩ := hcell (.inr hp) hx
      simp [decBit, hx, hv]

end EngineMemory

/-! ### The canonical form of the memory -/

section Canonical

variable {s s' : State}

theorem memAfterBit_wf (v : Byte) (h : Memory.wf s.mem) : Memory.wf (memAfterBit s v) := by
  unfold memAfterBit
  split
  · exact h
  · exact Memory.write_wf h _ _

theorem EngineMove.keeps_memInv (hm : EngineMove s s') (hi : MemInv s) : MemInv s' := by
  obtain ⟨hmem, hloans⟩ := hi
  constructor
  · obtain h | ⟨-, -, v, -, h⟩ := hm.mem_cases
    · exact h ▸ hmem
    · exact h ▸ memAfterBit_wf v hmem
  · obtain h | h := hm.loans_cases
    · exact h ▸ hloans
    · exact h ▸ List.forall_mem_cons.2 ⟨hmem, hloans⟩

/-- Among the host's moves only a write and a lending change the memory, and none changes a snapshot of it. -/
theorem hostMove_keeps_memInv {m : HostMove} (h : hostMove m s = .next s') (hi : MemInv s) : MemInv s' := by
  obtain rfl | ⟨w, -, hw⟩ | ⟨t, -, -, rfl⟩ | ⟨t, -, -, rfl⟩ | ⟨w, -, -, rfl⟩ | ⟨-, rfl⟩ | ⟨a, v, -, -, -, rfl⟩ |
    ⟨a, v, -, -, rfl⟩ | ⟨l, -, -, rfl⟩ := hostMove_cases h
  · exact hi
  · obtain ⟨hmem, hloans⟩ := exec_mem_loans hw
    rwa [MemInv, hmem, hloans]
  · exact hi
  · exact hi
  · exact hi
  · exact hi
  · exact hi
  · exact hi.imp_left fun hmem => Memory.write_wf hmem _ _
  · exact hi.imp_left fun _ => Memory.ofBytes_wf l 0

/-- Every turn keeps the memory and its snapshots canonical: the engine's by its moves, the host's by its own. -/
theorem step_keeps_memInv (h : step s = .next s') (hi : MemInv s) : MemInv s' := by
  obtain rfl | ⟨ts, -, he | ⟨m, -, hm⟩⟩ := step_cases h
  · exact hi
  · exact (engineStep_move he).keeps_memInv hi
  · exact hostMove_keeps_memInv hm hi

end Canonical

/-! ### The statements of 20_memory.md -/

/-- Settles O28: each clause is one outcome of the host's read or write, under the ownership rule in numbers. -/
theorem ownershipOfTheBuffer : Obligations.OwnershipOfTheBuffer := by
  intro s a v
  simp only [← lentToEnc_iff, ← lentToDec_iff, ← inBuffer_iff]
  refine ⟨fun h => ?_, fun h x hx => ?_, fun h hx => ?_, fun h => ?_, fun h => ?_⟩
  · exact readCell_refused (mt (hostMayRead_iff s a).1 (not_not_intro h))
  · exact readCell_attached ((hostMayRead_iff s a).2 h) hx
  · exact readCell_unattached ((hostMayRead_iff s a).2 h) hx
  · exact writeCell_refused v (mt (hostMayWrite_iff s a).1 (not_not_intro h))
  · refine ⟨_, writeCell_allowed v ((hostMayWrite_iff s a).2 h), rfl, fun b => ?_⟩
    simp only [storeCell_mem, Memory.read_write, eq_comm]

/-- Settles O29: outside a loan the memory attached is the one made of the bytes. -/
theorem lentMemoryHoldsTheBytes : Obligations.LentMemoryHoldsTheBytes := by
  intro s l
  simp only [← lentToEnc_iff, ← lentToDec_iff]
  refine ⟨fun h => lend_refused l (mt (hostMayLend_iff s).1 (not_not_intro h)), fun h => ?_⟩
  refine ⟨_, lend_allowed l ((hostMayLend_iff s).2 h), rfl, Memory.ofBytes_wf l 0, fun a => ?_⟩
  simpa using Memory.read_ofBytes l 0 a

/-- Settles O34, by the engine's moves and the host's: each leaves the memory and its snapshots, or writes a cell, lends
bytes, or adds a snapshot of the memory as it stands. -/
theorem everyStepKeepsMemoryCanonical : Obligations.EveryStepKeepsMemoryCanonical :=
  fun _ _ hi h => step_keeps_memInv h hi

/-- Settles O36: the cursor of a bit step stands in the buffer, and its cell is the only one the engine can change. -/
theorem engineStaysInsideTheBuffer : Obligations.EngineStaysInsideTheBuffer := by
  refine ⟨fun s hi hp hx => ⟨cellAddressAt_toNat _ _ _, hi.cellAddress_lt hp hx⟩,
    fun s s' hi h a => (engineStep_move h).read_outside hi, fun h r s s' hex => ?_⟩
  obtain hex | hex := hex <;> exact (exec_mem_loans hex).1

/-- Settles O38: the one move of the engine that writes the memory is made in ENC_BIT. -/
theorem onlyEncBitWritesCells : Obligations.OnlyEncBitWritesCells :=
  fun _ _ h hp => (engineStep_move h).mem_cases.resolve_right fun ⟨hbit, _⟩ => hp hbit

/-- Settles O40: the cell a bit step needs lies in the buffer, so it is attached, and nothing else stops the engine. -/
theorem engineNeverStopsOnAnAttachedBuffer : Obligations.EngineNeverStopsOnAnAttachedBuffer :=
  fun _ hi hcov => engineStep_answers fun hp hx => Option.isSome_iff_exists.1 (hcov _ (hi.cellAddress_lt hp hx))

/-- Settles O16: with cells left, both bit steps read the cell before they do anything else. -/
theorem missingCellRefusesTheBitStep : Obligations.MissingCellRefusesTheBitStep :=
  fun _ => engineStep_missing_cell

end Sys2Proof.Machine

/-! PROOFS. The statements about 30_encoding.md: the layout of CMD66 (R70 to R73), what the issue of a command writes and
what it leaves (R74), and the lines of a program (R79). -/

namespace Sys2Proof.Machine

/-! ### The encoder and the decoder (R70 to R73) -/

/-- Every value of the field op is the number of the opcode it stands for (R71). -/
theorem bits_opcodeOf (b : BitVec 2) : (opcodeOf b).bits = b := by
  revert b; decide

/-- The three fields of R70 are all of a command word. -/
theorem commandWord_fields (w : CommandWord) : commandWord (opcodeOf (opField w)) (hField w) (rField w) = w := by
  rw [commandWord, bits_opcodeOf, opField, hField, rField,
    BitVec.extractLsb'_append_extractLsb'_eq_extractLsb' (by rfl : 64 = 32 + 32),
    BitVec.extractLsb'_append_extractLsb'_eq_extractLsb' (by rfl : 32 = 0 + 32)]
  exact BitVec.extractLsb'_eq_self

/-- Every word is the word of the command it decodes to. -/
theorem encode_decodeWord (w : CommandWord) : encode (decodeWord w) = w := by
  have hw := commandWord_fields w
  unfold decodeWord
  split
  all_goals
    rename_i hop
    rw [hop] at hw
    exact hw

theorem decode_of_lt {n : Nat} (h : n < 2 ^ 66) : decode n = .ok (decodeWord (BitVec.ofNat 66 n)) :=
  if_pos h

theorem decode_of_le {n : Nat} (h : 2 ^ 66 ≤ n) : decode n = .error .widerThanCommandWord :=
  if_neg (Nat.not_lt.2 h)

/-- Settles O2: the fields come back from a word built of them, and a word is built of its fields. -/
theorem decodeAndEncodeAgree : Obligations.DecodeAndEncodeAgree :=
  ⟨fun i => by rw [decode_toNat, decodeWord_encode], encode_decodeWord⟩

/-- Settles O3: a number that is some command's word has 66 bits, and one of 66 bits is the word of its command. -/
theorem commandsAreExactlyThe66BitNumbers : Obligations.CommandsAreExactlyThe66BitNumbers := by
  intro n
  refine ⟨⟨fun ⟨i, _, hn⟩ => hn ▸ (encode i).isLt, fun hn => ⟨_, decode_of_lt hn, ?_⟩⟩, decode_of_le⟩
  rw [encode_decodeWord, BitVec.toNat_ofNat, Nat.mod_eq_of_lt hn]

/-! ### What the issue of a command does (R73, R74) -/

/-- The CMD port answers every word with a next state, accepted or not (R34, R73). -/
theorem acceptCommand_answers (s a : State) : ∃ t, acceptCommand s a = .next t := by
  by_cases hp : s.phase = .idle
  · exact ⟨a, acceptCommand_idle hp⟩
  · exact ⟨s, acceptCommand_busy hp⟩

theorem exec_answers (i : Instr) (s : State) : ∃ t, exec i s = .next t := by
  cases i <;> exact acceptCommand_answers s _

theorem exec_nop_idle {s : State} (h r : Word) (hp : s.phase = .idle) : exec (.nop h r) s = .next s :=
  acceptCommand_idle hp

/-- The capacity in the form R90 writes it: the product is exact, and the quotient fits RES. -/
theorem capacity_eq_ofNat (h r : Word) : capacity h r = BitVec.ofNat 64 (h.toNat * r.toNat / 8) := by
  rw [← capacity_toNat, BitVec.ofNat_toNat, BitVec.setWidth_eq]

/-- Settles O4: every word decodes, and the issue of every command answers a next state. -/
theorem noCommandWordTraps : Obligations.NoCommandWordTraps :=
  fun w s => ⟨decodeWord w, decode_toNat w, rfl, exec_answers _ s⟩

/-- Settles O9: whichever command is accepted, its issue updates registers and the host's view only, and CAP's leaves the
cursor, CUR and the view. -/
theorem issueTouchesNoSlotAndNoCell : Obligations.IssueTouchesNoSlotAndNoCell := by
  intro i s t h
  obtain rfl | ⟨-, ⟨a, b, rfl, rfl⟩ | ⟨a, b, rfl, rfl⟩ | ⟨a, b, rfl, rfl⟩⟩ := exec_cases h
  · exact ⟨rfl, rfl, rfl, rfl, fun _ => rfl, fun _ _ _ => ⟨rfl, rfl, rfl, rfl, rfl⟩⟩
  · exact ⟨rfl, rfl, rfl, rfl, fun _ => rfl, fun _ _ _ => ⟨rfl, rfl, rfl, rfl, rfl⟩⟩
  · exact ⟨rfl, rfl, rfl, rfl, fun _ => rfl, nofun⟩
  · exact ⟨rfl, rfl, rfl, rfl, fun _ => rfl, nofun⟩

/-- Settles O8: in IDLE each command's update of the state is R74's, written out; in every other phase there is none. -/
theorem issueWritesExactlyWhatTheRuleSays : Obligations.IssueWritesExactlyWhatTheRuleSays := by
  refine ⟨fun i s => exec_busy i, fun h r s hp => ?_⟩
  refine ⟨exec_nop_idle h r hp, ?_, ⟨_, exec_enc_idle h r hp⟩, exec_dec_idle h r hp⟩
  rw [exec_cap_idle h r hp, capacity_eq_ofNat]
  rfl

/-! ### The lines of a program (R79, R193) -/

theorem assemble_cons_wellFormed {l : Line} (h : lineWellFormed l = true) (rest : List Line) :
    assemble (l :: rest) = (assemble rest).map ((lineMoves l).map Turn.line ++ ·) := by
  rw [assemble, h]
  cases assemble rest <;> rfl

theorem assemble_cons_refused {l : Line} {rest : List Line} (h : lineWellFormed l = false) :
    assemble (l :: rest) = none := by
  rw [assemble, h]

theorem assemble_line {l : Line} (h : lineWellFormed l = true) :
    assemble [l] = some ((lineMoves l).map Turn.line) := by
  rw [assemble_cons_wellFormed h, assemble, Option.map_some, List.append_nil]

/-- A program is assembled from its first line and the rest, and only when both are (R79). -/
theorem assemble_cons (l : Line) (rest : List Line) :
    assemble (l :: rest) = (assemble [l]).bind fun ts => (assemble rest).map (ts ++ ·) := by
  cases h : lineWellFormed l with
  | true => rw [assemble_cons_wellFormed h, assemble_line h, Option.bind_some]
  | false => rw [assemble_cons_refused h, assemble_cons_refused h, Option.bind_none]

/-- Both operands of a line fit their fields (R193). -/
theorem operandsFit_iff (h r : Nat) : (operandFits h && operandFits r) = true ↔ h < 2 ^ 32 ∧ r < 2 ^ 32 := by
  rw [Bool.and_eq_true, operandFits, operandFits, decide_eq_true_iff, decide_eq_true_iff]

theorem operandsFit_eq_false {h r : Nat} (hw : 2 ^ 32 ≤ h ∨ 2 ^ 32 ≤ r) : (operandFits h && operandFits r) = false := by
  rw [← Bool.not_eq_true, operandsFit_iff]
  omega

/-- A line that stands for one command: its word decodes to that command. -/
theorem assemble_issue {l : Line} {i : Instr} (h : lineWellFormed l = true) (hm : lineMoves l = [.issue (encode i)]) :
    ∃ w, assemble [l] = some [.line (.issue w)] ∧ decodeWord w = i := by
  refine ⟨encode i, ?_, decodeWord_encode i⟩
  rw [assemble_line h, hm, List.map_singleton]

/-- A data token carries its byte unchanged (R75). -/
theorem dataToken_toNat {n : Nat} (h : n < 256) : (dataToken (BitVec.ofNat 8 n)).toNat = n := by
  rw [dataToken, BitVec.toNat_append]
  simp [Nat.mod_eq_of_lt h]

theorem charsFit_iff (text : List Char) : text.all charFits = true ↔ ∀ c ∈ text, c.toNat < 128 := by
  simp [charFits]

/-- The tokens of a text: one data token for each character (R79). -/
def textTokens (text : List Char) : List Token := text.map fun c => dataToken (BitVec.ofNat 8 c.toNat)

theorem textTokens_toNat {text : List Char} (h : ∀ c ∈ text, c.toNat < 128) :
    (textTokens text).map BitVec.toNat = text.map Char.toNat := by
  rw [textTokens, List.map_map]
  exact List.map_congr_left fun c hc => dataToken_toNat (Nat.lt_trans (h c hc) (by decide))

theorem assemble_pushText {text : List Char} (h : ∀ c ∈ text, c.toNat < 128) :
    assemble [.pushText text] = some ((textTokens text).map fun t => .line (.push t)) := by
  have hfit : lineWellFormed (.pushText text) = true := (charsFit_iff text).2 h
  rw [assemble_line hfit, lineMoves, textTokens, List.map_map, List.map_map]
  rfl

/-- Settles O30: a line with a number too wide is refused; any other becomes its moves, whose words and tokens carry the
numbers whole; and a program is its first line followed by the rest. -/
theorem assemblerNeverTruncates : Obligations.AssemblerNeverTruncates := by
  refine ⟨fun h r => ⟨fun hh hr => ?_, fun hw => ?_⟩, fun d => ⟨fun hd => ?_, fun hd => ?_⟩,
    fun text => ⟨fun hc => ?_, fun ⟨c, hc, hwide⟩ => ?_⟩, rfl, rfl, rfl, rfl, rfl, rfl, fun l rest => ⟨?_, ?_⟩⟩
  · have hfit := (operandsFit_iff h r).2 ⟨hh, hr⟩
    exact ⟨assemble_issue hfit rfl, assemble_issue hfit rfl, assemble_issue hfit rfl⟩
  · have hwide := operandsFit_eq_false hw
    exact ⟨assemble_cons_refused hwide, assemble_cons_refused hwide, assemble_cons_refused hwide⟩
  · exact ⟨_, assemble_line (decide_eq_true hd), dataToken_toNat hd⟩
  · exact assemble_cons_refused (decide_eq_false (Nat.not_lt.2 hd))
  · exact ⟨textTokens text, assemble_pushText hc, textTokens_toNat hc⟩
  · refine assemble_cons_refused (Bool.eq_false_iff.2 fun hall => ?_)
    exact Nat.not_lt.2 hwide ((charsFit_iff text).1 hall c hc)
  · intro ts us hl hrest
    rw [assemble_cons, hl, hrest, Option.bind_some, Option.map_some]
  · rintro (hl | hrest)
    · rw [assemble_cons, hl, Option.bind_none]
    · rw [assemble_cons, hrest]
      cases assemble [l] <;> rfl

/-- A line waits while neither the engine nor its move can go on (R79, R191). -/
theorem step_line_waits {s : State} {m : HostMove} {ts : List Turn} (h : s.turns = .line m :: ts)
    (hh : engineHolds s = true) (hm : moveEnabled m s = false) : step s = .next s := by
  simp [step, takeTurn, lineTurn, h, hh, hm]

/-- Settles O42, one lemma for each of a line's three cases. -/
theorem programLineWaitsForItsMove : Obligations.ProgramLineWaitsForItsMove :=
  fun _ _ _ ht => ⟨step_line_engine ht, step_line_move ht, step_line_waits ht⟩

/-! ### The words of the test vectors -/

/-- Settles O1, by running the decoder on each word of the three tables. -/
theorem specWordsDecode : Obligations.SpecWordsDecode := by
  unfold Obligations.SpecWordsDecode
  decide

end Sys2Proof.Machine

namespace Sys2Proof.Machine

/-! ### The capacity's range and the answer of CAP (R90, R91) -/

/-- Settles O11: the product of two operands fits 64 bits, its bound bounds the quotient, and the largest operands
attain it. -/
theorem capacityIsExactForAllOperands : Obligations.CapacityIsExactForAllOperands := by
  intro h r
  have hle := operand_product_lt h r
  refine ⟨totalCells_toNat h r, ?_, capacity_toNat h r, ?_, ?_⟩
  · rw [totalCells_toNat]
    exact hle
  · rw [capacity_toNat]
    exact Nat.div_le_div_right hle
  · rintro rfl rfl
    rw [capacity_toNat]
    rfl

/-- Settles O12: the issue is R74's (O8), and the RESP step is R44's of a command that is not ENC (O19). -/
theorem capAnswersTheCapacity : Obligations.CapAnswersTheCapacity := by
  intro h r s hp t
  obtain ⟨-, hissue, -, -⟩ := issueWritesExactlyWhatTheRuleSays.2 h r s hp
  obtain ⟨hholds, -, hresp⟩ := respStepAndHolds
  refine ⟨hissue, fun hr => ?_, fun hr => hholds t (Option.isSome_iff_ne_none.2 hr)⟩
  obtain ⟨-, -, hnotEnc⟩ := hresp t rfl hr
  exact hnotEnc nofun

end Sys2Proof.Machine

/-! PROOFS. The statements about 41_encode.md: the steps of ENC (R102 to R109), the wire bits it writes (R110), and the
whole effect of an ENC, run by a program and under every schedule. -/

namespace Sys2Proof.Machine

/-! ### The steps of ENC -/

section EncSteps

variable {s : State} {t : Token}

theorem engineStep_encFetch (hp : s.phase = .encFetch) (ht : s.pin = some t) :
    engineStep s = .next ((((s.takePin t).noteEnd t).setCur (fetchedByte t)).setPhase .encBit) := by
  simp [engineStep, encFetch, hp, ht]

theorem engineStep_encDrain (hp : s.phase = .encDrain) (ht : s.pin = some t) :
    engineStep s =
      .next (((s.takePin t).noteEnd t).setPhase (if tokenIsEnd t then .idle else .encDrain)) := by
  simp [engineStep, encDrain, hp, ht]

theorem engineStep_outOfSpace (hp : s.phase = .encBit) (hx : exhausted s = true) :
    engineStep s = .next s.raiseOutOfSpace := by
  simp [engineStep, encBit, hp, hx]

theorem engineStep_writeBit {v : Byte} (hp : s.phase = .encBit) (hx : exhausted s = false)
    (hv : Memory.read s.mem (cellAddress s).toNat = some v) :
    engineStep s =
      .next ((((s.setMem (memAfterBit s v)).advancePos).advanceMask).setPhase (phaseAfterBit s)) := by
  simp [engineStep, encBit, hp, hx, hv]

/-- In ENC_FETCH and in ENC_DRAIN the engine waits for a token (R102, R109). -/
theorem engineHolds_of_pin_empty (hp : s.phase = .encFetch ∨ s.phase = .encDrain) (hq : s.pin = none) :
    engineHolds s = true := by
  obtain hp | hp := hp <;> simp [engineHolds, hp, hq]

theorem currentBit_iff (s : State) : currentBit s = true ↔ s.cur &&& s.mask ≠ 0 := by
  simp [currentBit]

theorem fetchedByte_of_end (h : tokenIsEnd t = true) : fetchedByte t = 0 := if_pos h

theorem fetchedByte_of_data (h : tokenIsEnd t = false) : fetchedByte t = tokenData t := by
  simp [fetchedByte, h]

end EncSteps

/-! ### The steps of ENC: the statements -/

/-- Settles O14: the step takes the token of PIN, and what it puts into CUR and SRC_END depends on the token's bit 8. -/
theorem encFetchTakesOneToken : Obligations.EncFetchTakesOneToken := by
  intro s hp
  refine ⟨fun hi => hi.fetch_mask hp, fun hq => ?_, fun t hq he => ?_, fun t hq he => ?_⟩
  · exact engineStep_of_engineHolds (engineHolds_of_pin_empty (.inl hp) hq)
  · refine ⟨(s.takePin t).host, ?_⟩
    rw [engineStep_encFetch hp hq, fetchedByte_of_end he, State.noteEnd, show tokenIsEnd t = true from he,
      Bool.or_true]
    rfl
  · refine ⟨(s.takePin t).host, ?_⟩
    rw [engineStep_encFetch hp hq, fetchedByte_of_data he, State.noteEnd, show tokenIsEnd t = false from he,
      Bool.or_false]
    rfl

/-- Settles O15: the two branches of ENC_BIT, the named tests and advances written out. -/
theorem encBitWritesOneBitAndAdvances : Obligations.EncBitWritesOneBitAndAdvances := by
  intro s hp
  refine ⟨engineStep_outOfSpace hp, fun v hx hv => ?_⟩
  have hbit : currentBit s = decide (s.cur &&& s.mask ≠ 0) :=
    Bool.eq_iff_iff.2 (by rw [currentBit_iff, decide_eq_true_iff])
  have hlast : phaseAfterBit s = if s.mask = 1 then (if s.cur = 0 then .resp else .encFetch) else .encBit := by
    simp [phaseAfterBit, lastBit]
  rw [engineStep_writeBit hp hx hv, hlast, memAfterBit, hbit]
  rfl

theorem lsb_iff (v : Byte) : lsb v = true ↔ v.toNat % 2 = 1 := by
  simp [lsb, BitVec.getLsbD, Nat.testBit_zero]

/-- A perturbed cell keeps its value exactly when its parity matched (R104). -/
theorem perturb_eq_self_iff (v : Byte) (b : Bool) : perturb v b = v ↔ lsb v = b := by
  refine ⟨fun h => h ▸ perturb_lsb v b, fun h => if_pos h⟩

/-- Settles O17: the cell under the cursor is perturbed (R104), and every other address reads as before. -/
theorem encBitPerturbsMinimally : Obligations.EncBitPerturbsMinimally := by
  intro s s' v hp hx hv h
  obtain rfl := next_inj (engineStep_writeBit hp hx hv ▸ h)
  have hnat := perturb_toNat v (currentBit s)
  refine ⟨⟨perturb v (currentBit s), ?_, ?_, ?_, fun hne hv => ?_, fun hne hv => ?_⟩, fun a ha => ?_⟩
  · exact (memAfterBit_read s hv _).trans (if_pos rfl)
  · rw [← lsb_iff, perturb_lsb, currentBit_iff]
  · rw [perturb_eq_self_iff, ← lsb_iff, ← currentBit_iff, Bool.eq_iff_iff]
  · rw [hnat, if_neg (mt (perturb_eq_self_iff v _).2 hne), if_pos hv]
    omega
  · rw [hnat, if_neg (mt (perturb_eq_self_iff v _).2 hne), if_neg (Nat.not_lt.2 hv)]
  · exact (memAfterBit_read s hv a).trans (if_neg (Ne.symm ha))

/-- Settles O18: RESP chooses the drain by OP and SRC_END, and the drain's step by the token's bit 8. -/
theorem encDrainDropsTheRestOfTheFrame : Obligations.EncDrainDropsTheRestOfTheFrame := by
  refine ⟨fun s s' hp hr h => ?_, fun s hp => ⟨fun hq => ?_, fun t hq he => ?_, fun t hq he => ?_⟩⟩
  · obtain rfl := next_inj (engineStep_resp hp hr ▸ h)
    simp [phaseAfterResponse_eq_iff]
  · exact engineStep_of_engineHolds (engineHolds_of_pin_empty (.inr hp) hq)
  · refine ⟨(s.takePin t).host, ?_⟩
    rw [engineStep_encDrain hp hq, State.noteEnd, show tokenIsEnd t = true from he, Bool.or_true]
    rfl
  · refine ⟨(s.takePin t).host, ?_⟩
    rw [engineStep_encDrain hp hq, State.noteEnd, show tokenIsEnd t = false from he, Bool.or_false, ← hp]
    rfl

end Sys2Proof.Machine

namespace Sys2Proof.Machine

/-! ### Wire bytes and wire bits (R110) -/

/-- None of the tokens is fetched as the byte 0, so an ENC that has taken them goes on (R106). -/
def Unterminated (tokens : List Token) : Prop := ∀ t ∈ tokens, fetchedByte t ≠ 0

theorem unterminated_append {a b : List Token} : Unterminated (a ++ b) ↔ Unterminated a ∧ Unterminated b :=
  List.forall_mem_append

theorem wireBytes_cons (t : Token) (rest : List Token) :
    wireBytes (t :: rest) = if fetchedByte t = 0 then [0] else fetchedByte t :: wireBytes rest := rfl

theorem wireBytes_singleton (t : Token) : wireBytes [t] = [fetchedByte t] := by
  rw [wireBytes_cons]
  split
  case isTrue h => rw [h]
  case isFalse => rfl

theorem wireBytes_append {a : List Token} (h : Unterminated a) (b : List Token) :
    wireBytes (a ++ b) = a.map fetchedByte ++ wireBytes b := by
  induction a with
  | nil => rfl
  | cons t rest ih =>
    obtain ⟨ht, hrest⟩ := List.forall_mem_cons.1 h
    rw [List.cons_append, wireBytes_cons, if_neg ht, ih hrest]
    rfl

theorem wireBytes_of_unterminated {a : List Token} (h : Unterminated a) : wireBytes a = a.map fetchedByte := by
  simpa [wireBytes] using wireBytes_append h []

/-- Nothing that comes after a byte 0 counts (R106). -/
theorem wireBytes_append_of_terminated {a : List Token} (h : ¬Unterminated a) (b : List Token) :
    wireBytes (a ++ b) = wireBytes a := by
  induction a with
  | nil => exact absurd (List.forall_mem_nil _) h
  | cons t rest ih =>
    rw [List.cons_append, wireBytes_cons, wireBytes_cons]
    split
    case isTrue => rfl
    case isFalse ht => rw [ih fun hrest => h (List.forall_mem_cons.2 ⟨ht, hrest⟩)]

theorem wireBytes_prefix (a b : List Token) : wireBytes a <+: wireBytes (a ++ b) := by
  by_cases h : Unterminated a
  · rw [wireBytes_append h, wireBytes_of_unterminated h]
    exact List.prefix_append _ _
  · rw [wireBytes_append_of_terminated h]

/-- The wire bytes of the tokens up to the one in CUR: one for each token. -/
theorem wireBytes_concat {a : List Token} (h : Unterminated a) (t : Token) :
    wireBytes (a ++ [t]) = a.map fetchedByte ++ [fetchedByte t] := by
  rw [wireBytes_append h, wireBytes_singleton]

theorem length_wireBytes_concat {a : List Token} (h : Unterminated a) (t : Token) :
    (wireBytes (a ++ [t])).length = a.length + 1 := by
  simp [wireBytes_concat h]

/-- The wire bytes of a whole frame: its logical payload and the terminator (R78, R110). -/
theorem wireBytes_payloadFrame (d : List Byte) {e : Token} (he : tokenIsEnd e = true) :
    wireBytes (payloadFrame d e) = logicalPayload d ++ [0] := by
  induction d with
  | nil => exact (wireBytes_singleton e).trans (by rw [fetchedByte_of_end he]; rfl)
  | cons b rest ih =>
    have hb : fetchedByte (dataToken b) = b := by
      rw [fetchedByte_of_data (tokenIsEnd_dataToken b), tokenData_dataToken]
    rw [payloadFrame, List.map_cons, List.cons_append, wireBytes_cons, hb, logicalPayload]
    split
    case isTrue => rfl
    case isFalse => rw [← payloadFrame, ih, List.cons_append]

theorem bits8_getElem? (d : Byte) {j : Nat} (hj : j < 8) : (bits8 d)[j]? = some (d.getLsbD (7 - j)) := by
  interval_cases j <;> rfl

theorem length_flatMap_bits8 (l : List Byte) : (l.flatMap bits8).length = 8 * l.length := by
  simp [List.length_flatMap, bits8, Nat.mul_comm]

theorem length_wireBits (tokens : List Token) : (wireBits tokens).length = 8 * (wireBytes tokens).length :=
  length_flatMap_bits8 _

theorem wireBits_prefix (a b : List Token) : wireBits a <+: wireBits (a ++ b) := by
  obtain ⟨more, h⟩ := wireBytes_prefix a b
  rw [wireBits, wireBits, ← h, List.flatMap_append]
  exact List.prefix_append _ _

/-- The wire bit of weight `2 ^ k` of the last token taken. -/
theorem wireBits_getElem? {a : List Token} (h : Unterminated a) (t : Token) {p k : Nat} (hk : k < 8)
    (hp : p + (k + 1) = 8 * (a.length + 1)) : (wireBits (a ++ [t]))[p]? = some ((fetchedByte t).getLsbD k) := by
  have hlen : ((a.map fetchedByte).flatMap bits8).length = 8 * a.length := by
    rw [length_flatMap_bits8, List.length_map]
  rw [wireBits, wireBytes_concat h, List.flatMap_append, List.getElem?_append_right (by omega), hlen,
    List.flatMap_singleton, bits8_getElem? _ (by omega)]
  congr 2
  omega

/-! ### Cells that carry the first of the wire bits -/

/-- `encodedCell` on the first `n` bits. -/
theorem encodedCell_take (q : List Bool) (n a : Nat) :
    encodedCell (q.take n) a = if a < n then encodedCell q a else id := by
  funext v
  rw [encodedCell, List.getElem?_take]
  by_cases ha : a < n
  · rw [if_pos ha, if_pos ha, encodedCell]
  · rw [if_neg ha, if_neg ha, id]

/-- The cells at the addresses `owned` are those of `before` with the bits `q` written (R110). With the addresses below
`total` it is `EncodedCells`. -/
def EncodedOn (owned : Nat → Prop) (before after : Memory) (q : List Bool) : Prop :=
  ∀ a, owned a → Memory.read after a = (Memory.read before a).map (encodedCell q a)

theorem encodedOn_nil (owned : Nat → Prop) (m : Memory) : EncodedOn owned m m [] := by
  intro a _
  exact Option.map_id'.symm

/-- Writing the next bit into its cell, after the bits before it. -/
theorem EncodedOn.write_bit {owned : Nat → Prop} {before after after' : Memory} {q : List Bool} {p : Nat} {b : Bool}
    {v : Byte} (h : EncodedOn owned before after (q.take p)) (hb : q[p]? = some b)
    (hv : Memory.read after p = some v)
    (hw : ∀ a, Memory.read after' a = if p = a then some (perturb v b) else Memory.read after a) :
    EncodedOn owned before after' (q.take (p + 1)) := by
  intro a ha
  have hbefore := h a ha
  simp only [encodedCell_take] at hbefore ⊢
  rw [hw]
  split
  case isTrue hpa =>
    subst hpa
    have hsame : Memory.read before p = some v := by simpa [hv] using hbefore.symm
    simp [hsame, encodedCell, hb]
  case isFalse hpa =>
    have hlt : a < p + 1 ↔ a < p := by omega
    simpa only [hlt] using hbefore

end Sys2Proof.Machine

namespace Sys2Proof.Machine

/-! ### The cursor in the buffer -/

/-- The number of cells the cursor has passed, which is the address of the cell it stands at (R31, R51). -/
def position (s : State) : Nat := s.row.toNat * s.r.toNat + s.col.toNat

theorem cellAddress_toNat (s : State) : (cellAddress s).toNat = position s := cellAddressAt_toNat _ _ _

/-- The cursor stands in the buffer or right behind its last cell. -/
structure CursorInRange (s : State) : Prop where
  row_le : s.row ≤ s.h
  col_lt : exhausted s = false → s.col < s.r
  position_le : position s ≤ s.h.toNat * s.r.toNat

section CursorInRange

variable {s : State}

theorem CursorInRange.row_lt (hc : CursorInRange s) (hx : exhausted s = false) : s.row < s.h :=
  BitVec.lt_of_le_ne hc.row_le ((exhausted_false_iff s).1 hx).1

theorem CursorInRange.position_lt (hc : CursorInRange s) (hx : exhausted s = false) :
    position s < s.h.toNat * s.r.toNat := by
  rw [← cellAddress_toNat]
  exact cellAddress_lt_of_inside (hc.col_lt hx) (hc.row_lt hx)

theorem CursorInRange.position_eq (hc : CursorInRange s) (hx : exhausted s = true) :
    position s = s.h.toNat * s.r.toNat :=
  Nat.le_antisymm hc.position_le ((exhausted_iff_position hc.row_le hc.col_lt).1 hx)

theorem CursorInRange.position_advancePos (hc : CursorInRange s) (hx : exhausted s = false) :
    position s.advancePos = position s + 1 :=
  advancePos_position (hc.col_lt hx) (hc.row_lt hx)

theorem CursorInRange.advancePos (hc : CursorInRange s) (hx : exhausted s = false) :
    CursorInRange s.advancePos where
  row_le := nextRow_le (hc.row_lt hx)
  col_lt _ := nextCol_lt (hc.col_lt hx)
  position_le := hc.position_advancePos hx ▸ hc.position_lt hx

/-- H, R and the cursor are all it speaks of. -/
theorem CursorInRange.of_eq {s' : State} (hc : CursorInRange s) (hh : s'.h = s.h) (hr : s'.r = s.r)
    (hrow : s'.row = s.row) (hcol : s'.col = s.col) : CursorInRange s' where
  row_le := by
    rw [hrow, hh]
    exact hc.row_le
  col_lt := by
    rw [exhausted, hrow, hh, hr, hcol]
    exact hc.col_lt
  position_le := by
    rw [position, hrow, hh, hr, hcol]
    exact hc.position_le

/-- The fresh cursor of R30, whatever the other fields hold. -/
theorem cursorInRange_of_fresh (hrow : s.row = 0) (hcol : s.col = 0) : CursorInRange s where
  row_le := hrow ▸ Nat.zero_le _
  col_lt hx := hcol ▸ BitVec.lt_of_le_ne (Nat.zero_le _) (Ne.symm ((exhausted_false_iff s).1 hx).2)
  position_le := by simp [position, hrow, hcol]

end CursorInRange

/-! ### MASK as a weight -/

theorem weight_ne_zero {k : Nat} (hk : k < 8) : BitVec.twoPow 8 k ≠ 0#8 := by
  revert k; decide

/-- The bit of CUR under the weight `2 ^ k` (R103). -/
theorem currentBit_of_weight {s : State} {k : Nat} (hk : k < 8) (hm : s.mask = BitVec.twoPow 8 k) :
    currentBit s = s.cur.getLsbD k := by
  rw [Bool.eq_iff_iff, currentBit_iff, hm, BitVec.and_twoPow]
  cases s.cur.getLsbD k <;> simp [weight_ne_zero hk]

theorem weight_eq_one_iff {k : Nat} (hk : k < 8) : BitVec.twoPow 8 k = 1 ↔ k = 0 := by
  revert k; decide

theorem nextMask_weight {k : Nat} (hk : k + 1 < 8) : nextMask (BitVec.twoPow 8 (k + 1)) = BitVec.twoPow 8 k := by
  have : ∀ j < 7, nextMask (BitVec.twoPow 8 (j + 1)) = BitVec.twoPow 8 j := by decide
  exact this k (by omega)

/-! ### What the tokens taken decide -/

/-- The tokens decide how an ENC on `total` cells ends: a byte 0 is among them, or their wire bits do not fit. -/
def Settled (total : Nat) (taken : List Token) : Prop :=
  Unterminated taken → total < 8 * (wireBytes taken).length

/-- What R110 says of an ENC on `total` cells that has taken `taken`: `after` is the memory at the end of its loan, and
`err` the error bit of its response. -/
structure EncOutcome (owned : Nat → Prop) (before after : Memory) (total : Nat) (taken : List Token) (err : Bool) :
    Prop where
  settled : Settled total taken
  cells : EncodedOn owned before after ((wireBits taken).take total)
  err_eq : err = decide (total < 8 * (wireBytes taken).length)

/-- The tokens that follow the decision change nothing of it: those the drain drops (R109). -/
theorem Settled.append {total : Nat} {taken : List Token} (h : Settled total taken) (more : List Token) :
    Settled total (taken ++ more) ∧ (wireBits (taken ++ more)).take total = (wireBits taken).take total ∧
      (total < 8 * (wireBytes (taken ++ more)).length ↔ total < 8 * (wireBytes taken).length) := by
  have hle := (wireBytes_prefix taken more).length_le
  by_cases hu : Unterminated taken
  · have hlt := h hu
    obtain ⟨rest, hrest⟩ := wireBits_prefix taken more
    have hlen : total ≤ (wireBits taken).length := by
      rw [length_wireBits]
      exact hlt.le
    refine ⟨fun _ => by omega, ?_, by omega⟩
    rw [← hrest, List.take_append_of_le_length hlen]
  · have heq := wireBytes_append_of_terminated hu more
    refine ⟨fun hall => absurd (unterminated_append.1 hall).1 hu, ?_, by rw [heq]⟩
    rw [wireBits, heq, wireBits]

theorem EncOutcome.append {owned : Nat → Prop} {before after : Memory} {total : Nat} {taken : List Token} {err : Bool}
    (h : EncOutcome owned before after total taken err) (more : List Token) :
    EncOutcome owned before after total (taken ++ more) err := by
  obtain ⟨hset, hbits, hfit⟩ := h.settled.append more
  exact ⟨hset, hbits ▸ h.cells, h.err_eq.trans (decide_eq_decide.2 hfit.symm)⟩

/-! ### An ENC that has the buffer -/

/-- An ENC has the buffer, lent to it as `before`, and has taken the tokens `taken`: the cells the cursor has passed
carry their wire bits, and the cursor, MASK and CUR say how far it is in them. The addresses `owned` are those at which nobody
else writes; `older` are the tokens of earlier ENCs. -/
structure EncRunning (owned : Nat → Prop) (before : Memory) (older : List (List Token)) (taken : List Token)
    (s : State) : Prop where
  op : s.op = .enc
  res : s.res = 0
  lent : lentToEnc s = true
  cursor : CursorInRange s
  takes : s.host.takes = taken.reverse :: older
  cells : EncodedOn owned before s.mem ((wireBits taken).take (position s))
  /-- Between two bytes. -/
  fetch : s.phase = .encFetch →
    Unterminated taken ∧ s.rc = false ∧ s.mask = 128 ∧ position s = 8 * taken.length
  /-- Within a byte: the weights from `2 ^ k` down are to come. -/
  bit : s.phase = .encBit → ∃ pre t k, taken = pre ++ [t] ∧ Unterminated pre ∧ s.rc = false ∧
    s.cur = fetchedByte t ∧ k < 8 ∧ s.mask = BitVec.twoPow 8 k ∧ position s + (k + 1) = 8 * (pre.length + 1)
  /-- At the end. -/
  resp : s.phase = .resp → EncOutcome owned before s.mem (s.h.toNat * s.r.toNat) taken s.rc

section EncRunning

variable {owned : Nat → Prop} {before : Memory} {older : List (List Token)} {taken : List Token} {s s' : State}

theorem EncRunning.phase_cases (hr : EncRunning owned before older taken s) :
    s.phase = .encFetch ∨ s.phase = .encBit ∨ s.phase = .resp := by
  have := (lentToEnc_iff s).1 hr.lent
  tauto

/-- In a byte the position lies within the wire bits of the tokens taken. -/
theorem EncRunning.position_lt_wireBits (hr : EncRunning owned before older taken s) (hp : s.phase = .encBit) :
    position s < 8 * (wireBytes taken).length := by
  obtain ⟨pre, t, k, rfl, hpre, -, -, -, -, hpos⟩ := hr.bit hp
  rw [length_wireBytes_concat hpre]
  omega

/-- The issue of an ENC: no token is taken and no cell is passed (R74, R101). -/
theorem encRunning_issue (owned : Nat → Prop) (s : State) (h r : Word) :
    EncRunning owned s.mem s.host.takes [] (((s.beginBitCommand .enc h r).openTakes).setPhase .encFetch) where
  op := rfl
  res := rfl
  lent := rfl
  cursor := cursorInRange_of_fresh rfl rfl
  takes := rfl
  cells := by
    simp only [wireBits, wireBytes, List.flatMap_nil, List.take_nil]
    exact encodedOn_nil owned s.mem
  fetch _ := ⟨List.forall_mem_nil _, rfl, rfl, by
    change (0 : Word).toNat * r.toNat + (0 : Word).toNat = _
    simp⟩
  bit := nofun
  resp := nofun

/-- ENC_FETCH takes the next token; its byte's bits are all to come (R102). -/
theorem EncRunning.fetch_token (hr : EncRunning owned before older taken s) (hp : s.phase = .encFetch) (t : Token) :
    EncRunning owned before older (taken ++ [t])
      ((((s.takePin t).noteEnd t).setCur (fetchedByte t)).setPhase .encBit) := by
  obtain ⟨hopen, hrc, hmask, hpos⟩ := hr.fetch hp
  have hsame : (wireBits (taken ++ [t])).take (position s) = (wireBits taken).take (position s) := by
    obtain ⟨rest, hrest⟩ := wireBits_prefix taken [t]
    rw [← hrest, List.take_append_of_le_length]
    rw [length_wireBits, wireBytes_of_unterminated hopen, List.length_map, hpos]
  have hcells : EncodedOn owned before s.mem ((wireBits (taken ++ [t])).take (position s)) := by
    rw [hsame]
    exact hr.cells
  have hnext : position s + (7 + 1) = 8 * (taken.length + 1) := by omega
  exact { hr with
    lent := rfl
    cursor := hr.cursor.of_eq rfl rfl rfl rfl
    takes := by simp [hr.takes, recordTake]
    cells := hcells
    fetch := nofun
    bit := fun _ => ⟨taken, t, 7, rfl, hopen, hrc, rfl, by decide, hmask, hnext⟩
    resp := nofun }

/-- ENC_BIT without a cell left: the wire bits do not fit (R103, R107). -/
theorem EncRunning.outOfSpace (hr : EncRunning owned before older taken s) (hp : s.phase = .encBit)
    (hx : exhausted s = true) : EncRunning owned before older taken s.raiseOutOfSpace := by
  have hpos := hr.cursor.position_eq hx
  have hlt : s.h.toNat * s.r.toNat < 8 * (wireBytes taken).length := hpos ▸ hr.position_lt_wireBits hp
  exact { hr with
    lent := (lentToEnc_iff _).2 (.inr (.inr ⟨rfl, hr.op⟩))
    cursor := hr.cursor.of_eq rfl rfl rfl rfl
    fetch := nofun
    bit := nofun
    resp := fun _ => ⟨fun _ => hlt, hpos ▸ hr.cells, (decide_eq_true hlt).symm⟩ }

/-- ENC_BIT with a cell left: the cell carries the next wire bit, and the phase says whether the byte, and with the
byte 0 the ENC, is at its end (R103, R106). -/
theorem EncRunning.write_bit {v : Byte} (hr : EncRunning owned before older taken s) (hp : s.phase = .encBit)
    (hx : exhausted s = false) (hv : Memory.read s.mem (cellAddress s).toNat = some v) :
    EncRunning owned before older taken
      ((((s.setMem (memAfterBit s v)).advancePos).advanceMask).setPhase (phaseAfterBit s)) := by
  obtain ⟨pre, t, k, rfl, hpre, hrc, hcur, hk, hmask, hpos⟩ := hr.bit hp
  have hadv : position s.advancePos = position s + 1 := hr.cursor.position_advancePos hx
  have hread := memAfterBit_read s hv
  rw [cellAddress_toNat] at hv hread
  have hnextBit : (wireBits (pre ++ [t]))[position s]? = some (currentBit s) := by
    rw [currentBit_of_weight hk hmask, hcur, wireBits_getElem? hpre t hk hpos]
  have hcells := hr.cells.write_bit hnextBit hv hread
  rw [← hadv] at hcells
  have hlast : s.mask = 1 ↔ k = 0 := hmask ▸ weight_eq_one_iff hk
  have hlen := length_wireBytes_concat hpre t
  have hle : position s.advancePos ≤ s.h.toNat * s.r.toNat := (hr.cursor.advancePos hx).position_le
  refine { hr with
    lent := ?_
    cursor := (hr.cursor.advancePos hx).of_eq rfl rfl rfl rfl
    cells := hcells
    fetch := fun hq => ?_
    bit := fun hq => ?_
    resp := fun hq => ?_ }
  · rw [lentToEnc_iff, setPhase_phase]
    have := (phaseAfterBit_eq_iff s _).1 rfl
    have := hr.op
    tauto
  · obtain ⟨hm, hc⟩ : s.mask = 1 ∧ s.cur ≠ 0 := by simpa [phaseAfterBit_eq_iff] using hq
    have hopen : Unterminated (pre ++ [t]) :=
      unterminated_append.2 ⟨hpre, List.forall_mem_singleton.2 (hcur ▸ hc)⟩
    have hfirst : nextMask s.mask = 128 := by rw [hm, nextMask_one]
    refine ⟨hopen, hrc, hfirst, hadv.trans ?_⟩
    rw [List.length_append, List.length_singleton, ← hpos, hlast.1 hm]
  · have hm : s.mask ≠ 1 := by simpa [phaseAfterBit_eq_iff] using hq
    obtain ⟨j, rfl⟩ := Nat.exists_eq_succ_of_ne_zero (mt hlast.2 hm)
    have hnext : nextMask s.mask = BitVec.twoPow 8 j := by rw [hmask, nextMask_weight hk]
    refine ⟨pre, t, j, rfl, hpre, hrc, hcur, by omega, hnext, ?_⟩
    change position s.advancePos + (j + 1) = _
    omega
  · obtain ⟨hm, hc⟩ : s.mask = 1 ∧ s.cur = 0 := by simpa [phaseAfterBit_eq_iff] using hq
    have hend : position s.advancePos = 8 * (wireBytes (pre ++ [t])).length := by
      rw [hadv, hlen, ← hpos, hlast.1 hm]
    rw [hend] at hle
    refine ⟨fun hall => ?_, ?_, hrc.trans (decide_eq_false (Nat.not_lt.2 hle)).symm⟩
    · exact absurd (hcur ▸ hc) (hall t (List.mem_append_right pre (List.mem_singleton_self t)))
    · rw [hend, ← length_wireBits, List.take_length] at hcells
      rw [← length_wireBits] at hle
      exact (List.take_of_length_le hle).symm ▸ hcells

end EncRunning

end Sys2Proof.Machine

namespace Sys2Proof.Machine

/-! ### What every turn but a RESET leaves of the schedule and of the host's view -/

section Turns

variable {s s' : State}

theorem EngineMove.turns_eq (hm : EngineMove s s') : s'.turns = s.turns := by
  cases hm <;> rfl

theorem exec_turns {i : Instr} (h : exec i s = .next s') : s'.turns = s.turns := by
  obtain ⟨-, -, -, hturns, -⟩ := issueTouchesNoSlotAndNoCell i s s' h
  exact hturns

theorem hostMove_turns {m : HostMove} (h : hostMove m s = .next s') : s'.turns = s.turns := by
  obtain rfl | ⟨w, -, hw⟩ | ⟨t, -, -, rfl⟩ | ⟨t, -, -, rfl⟩ | ⟨w, -, -, rfl⟩ | ⟨-, rfl⟩ | ⟨a, v, -, -, -, rfl⟩ |
    ⟨a, v, -, -, rfl⟩ | ⟨l, -, -, rfl⟩ := hostMove_cases h
  case inr.inl => exact exec_turns hw
  all_goals rfl

/-- No step adds a turn to the schedule. -/
theorem step_turns_suffix (h : step s = .next s') : s'.turns <:+ s.turns := by
  obtain rfl | ⟨ts, hts, he | ⟨m, -, hm⟩⟩ := step_cases h
  · exact List.suffix_refl _
  · exact (engineStep_move he).turns_eq ▸ hts
  · exact hostMove_turns hm ▸ hts

theorem run_turns_suffix {k : Nat} (h : run k s = .next s') : s'.turns <:+ s.turns :=
  run_keeps (P := fun a => a.turns <:+ s.turns) (fun ha hs => (step_turns_suffix ha).trans hs) h (List.suffix_refl _)

theorem NoReset.of_suffix {ts us : List Turn} (h : NoReset us) (hs : ts <:+ us) : NoReset ts :=
  fun t ht => h t (hs.subset ht)

theorem NoReset.ne_reset {ts : List Turn} {m : HostMove} (h : NoReset ts) (hm : Turn.host m ∈ ts ∨ Turn.line m ∈ ts) :
    m ≠ .reset := by
  rintro rfl
  obtain hm | hm := hm <;> cases h _ hm

/-- The records of loans, tokens and responses only grow (R198): a list of tokens is begun or gets a token. -/
structure ViewGrows (s s' : State) : Prop where
  loans : s.host.loans <:+ s'.host.loans
  responses : responsesSoFar s <:+ responsesSoFar s'
  takes : s'.host.takes = s.host.takes ∨ s'.host.takes = [] :: s.host.takes ∨
    ∃ t, s'.host.takes = recordTake t s.host.takes

theorem ViewGrows.of_eq (hl : s'.host.loans = s.host.loans) (hr : responsesSoFar s' = responsesSoFar s)
    (ht : s'.host.takes = s.host.takes) : ViewGrows s s' :=
  ⟨hl ▸ List.suffix_refl _, hr ▸ List.suffix_refl _, .inl ht⟩

theorem EngineMove.view_grows (hm : EngineMove s s') : ViewGrows s s' := by
  have hloans : s.host.loans <:+ s'.host.loans := by
    obtain h | h := hm.loans_cases
    · exact h ▸ List.suffix_refl _
    · exact h ▸ List.suffix_cons _ _
  cases hm with
  | fetch t hp ht => exact ⟨hloans, List.suffix_refl _, .inr (.inr ⟨t, rfl⟩)⟩
  | drain t hp ht => exact ⟨hloans, List.suffix_refl _, .inr (.inr ⟨t, rfl⟩)⟩
  | respond hp hr =>
    refine ⟨hloans, ?_, .inl rfl⟩
    rw [responsesSoFar, hr]
    exact List.suffix_cons _ _
  | _ => exact ⟨hloans, List.suffix_refl _, .inl rfl⟩

theorem exec_view_grows {i : Instr} (h : exec i s = .next s') : ViewGrows s s' := by
  obtain rfl | ⟨-, ⟨a, b, -, rfl⟩ | ⟨a, b, -, rfl⟩ | ⟨a, b, -, rfl⟩⟩ := exec_cases h
  · exact .of_eq rfl rfl rfl
  · exact .of_eq rfl rfl rfl
  · exact ⟨List.suffix_refl _, List.suffix_refl _, .inr (.inl rfl)⟩
  · exact .of_eq rfl rfl rfl

/-- A popped response goes from RSP to the host's list, so those put so far are the same. -/
theorem responsesSoFar_takeRsp {w : Response} (hw : s.rsp = some w) :
    responsesSoFar (s.takeRsp w) = responsesSoFar s := by
  simp [responsesSoFar, hw]

theorem hostMove_view_grows {m : HostMove} (h : hostMove m s = .next s') (hm : m ≠ .reset) : ViewGrows s s' := by
  obtain rfl | ⟨w, -, hw⟩ | ⟨t, -, -, rfl⟩ | ⟨t, -, -, rfl⟩ | ⟨w, -, hw, rfl⟩ | ⟨rfl, -⟩ | ⟨a, v, -, -, -, rfl⟩ |
    ⟨a, v, -, -, rfl⟩ | ⟨l, -, -, rfl⟩ := hostMove_cases h
  case inr.inl => exact exec_view_grows hw
  case inr.inr.inr.inr.inl => exact .of_eq rfl (responsesSoFar_takeRsp hw) rfl
  case inr.inr.inr.inr.inr.inl => exact absurd rfl hm
  all_goals exact .of_eq rfl rfl rfl

theorem step_view_grows (h : step s = .next s') (hn : NoReset s.turns) : ViewGrows s s' := by
  obtain rfl | ⟨ts, -, he | ⟨m, hm, hmove⟩⟩ := step_cases h
  · exact .of_eq rfl rfl rfl
  · exact { (engineStep_move he).view_grows with }
  · exact { hostMove_view_grows hmove (hn.ne_reset hm) with }

end Turns

/-! ### An ENC under every schedule without RESET (R197) -/

/-- An ENC h, r accepted in `start` still has the buffer. -/
structure EncLent (start : State) (h r : Word) (s : State) : Prop where
  running : ∃ taken, EncRunning (· < h.toNat * r.toNat) start.mem start.host.takes taken s
  h_eq : s.h = h
  r_eq : s.r = r
  loans : s.host.loans = start.host.loans
  responses : responsesSoFar s = responsesSoFar start

/-- The loan of an ENC h, r accepted in `start` has ended, and the records say with what outcome. -/
def EncEnded (start : State) (h r : Word) (s : State) : Prop :=
  ∃ m taken err, EncOutcome (· < h.toNat * r.toNat) start.mem m (h.toNat * r.toNat) taken err ∧
    m :: start.host.loans <:+ s.host.loans ∧ taken.reverse :: start.host.takes <:+ s.host.takes ∧
    responseWord err 0 :: responsesSoFar start <:+ responsesSoFar s

section EverySchedule

variable {start s s' : State} {h r : Word}

theorem encLent_issue (start : State) (h r : Word) :
    EncLent start h r (((start.beginBitCommand .enc h r).openTakes).setPhase .encFetch) :=
  ⟨⟨[], encRunning_issue _ start h r⟩, rfl, rfl, rfl, rfl⟩

/-- The RESP step ends the loan (R52, R110). -/
theorem EncLent.respond (hl : EncLent start h r s) (hp : s.phase = .resp) (hr : s.rsp = none) :
    EncEnded start h r (((endEncLoan s).putRsp (responseWord s.rc s.res)).setPhase (phaseAfterResponse s)) := by
  obtain ⟨⟨taken, hrun⟩, rfl, rfl, hloans, hresponses⟩ := hl
  refine ⟨s.mem, taken, s.rc, hrun.resp hp, ?_, ?_, ?_⟩
  · simp [hrun.op, hloans]
  · simp [hrun.takes]
  · have hold : s.host.responses = responsesSoFar start := by rw [← hresponses, responsesSoFar, hr]; rfl
    simp [responsesSoFar, hrun.res, hold]

/-- Every move of the engine goes on with the ENC or ends its loan. -/
theorem EncLent.of_engineMove (hl : EncLent start h r s) (hm : EngineMove s s') :
    EncLent start h r s' ∨ EncEnded start h r s' := by
  obtain ⟨taken, hrun⟩ := hl.running
  have hphase := hrun.phase_cases
  cases hm with
  | hold => exact .inl hl
  | fetch t hp ht => exact .inl { hl with running := ⟨_, hrun.fetch_token hp t⟩ }
  | outOfSpace hp hx => exact .inl { hl with running := ⟨_, hrun.outOfSpace hp hx⟩ }
  | writeBit v hp hx hv => exact .inl { hl with running := ⟨_, hrun.write_bit hp hx hv⟩ }
  | respond hp hr => exact .inr (hl.respond hp hr)
  | _ => simp_all

theorem EncodedOn.write_other {owned : Nat → Prop} {before after : Memory} {q : List Bool}
    (hc : EncodedOn owned before after q) {a : Nat} (ha : ¬owned a) (v : Byte) :
    EncodedOn owned before (Memory.write after a v) q := by
  intro b hb
  have hab : a ≠ b := by
    rintro rfl
    exact ha hb
  rw [Memory.read_write_other after v hab, hc b hb]

/-- The host writes no cell of the lent buffer (R52). -/
theorem EncRunning.storeCell {owned : Nat → Prop} {before : Memory} {older : List (List Token)} {taken : List Token}
    (hrun : EncRunning owned before older taken s) {a : Nat} (ha : ¬owned a) (v : Byte) :
    EncRunning owned before older taken (s.storeCell a v) :=
  { hrun with
    cursor := hrun.cursor.of_eq rfl rfl rfl rfl
    cells := hrun.cells.write_other ha v
    resp := fun hp => { hrun.resp hp with cells := (hrun.resp hp).cells.write_other ha v } }

/-- No move of the host but RESET disturbs the ENC: it can issue no command, and the buffer is lent. -/
theorem EncLent.of_hostMove {m : HostMove} (hl : EncLent start h r s) (hmove : hostMove m s = .next s')
    (hm : m ≠ .reset) :
    EncLent start h r s' := by
  obtain ⟨taken, hrun⟩ := hl.running
  have hbusy : s.phase ≠ .idle := by
    obtain hp | hp | hp := hrun.phase_cases <;> simp [hp]
  obtain rfl | ⟨w, -, hw⟩ | ⟨t, -, -, rfl⟩ | ⟨t, -, -, rfl⟩ | ⟨w, -, hw, rfl⟩ | ⟨rfl, -⟩ | ⟨a, v, -, -, -, rfl⟩ |
    ⟨a, v, -, ha, rfl⟩ | ⟨l, -, hl, -⟩ := hostMove_cases hmove
  · exact hl
  · exact next_inj (exec_busy _ hbusy ▸ hw) ▸ hl
  · exact { hl with running := ⟨taken, { hrun with cursor := hrun.cursor.of_eq rfl rfl rfl rfl }⟩ }
  · exact { hl with running := ⟨taken, { hrun with cursor := hrun.cursor.of_eq rfl rfl rfl rfl }⟩ }
  · exact { hl with
      running := ⟨taken, { hrun with cursor := hrun.cursor.of_eq rfl rfl rfl rfl }⟩
      responses := (responsesSoFar_takeRsp hw).trans hl.responses }
  · exact absurd rfl hm
  · exact { hl with running := ⟨taken, { hrun with cursor := hrun.cursor.of_eq rfl rfl rfl rfl }⟩ }
  · have hout : ¬a.toNat < h.toNat * r.toNat := fun hlt =>
      (hostMayWrite_iff s a).1 ha ⟨.inl hrun.lent, (inBuffer_iff s a).2 (hl.h_eq ▸ hl.r_eq ▸ hlt)⟩
    exact { hl with running := ⟨taken, hrun.storeCell hout v⟩ }
  · exact absurd (.inl hrun.lent) ((hostMayLend_iff s).1 hl)

/-- The outcome, once recorded, stays: the tokens the ENC still drains change nothing of it (R109). -/
theorem EncEnded.of_viewGrows (he : EncEnded start h r s) (hv : ViewGrows s s') : EncEnded start h r s' := by
  obtain ⟨m, taken, err, hout, hloans, ⟨newer, htakes⟩, hresponses⟩ := he
  have keep : taken.reverse :: start.host.takes <:+ s'.host.takes → EncEnded start h r s' := fun ht =>
    ⟨m, taken, err, hout, hloans.trans hv.loans, ht, hresponses.trans hv.responses⟩
  obtain ht | ht | ⟨t, ht⟩ := hv.takes
  · exact keep (ht ▸ ⟨newer, htakes⟩)
  · exact keep (ht ▸ ⟨[] :: newer, congrArg ([] :: ·) htakes⟩)
  · cases newer with
    | nil =>
      refine ⟨m, taken ++ [t], err, hout.append [t], hloans.trans hv.loans, ?_, hresponses.trans hv.responses⟩
      rw [ht, ← htakes]
      simp [recordTake]
    | cons frame newer =>
      refine keep ⟨(t :: frame) :: newer, ?_⟩
      rw [ht, ← htakes]
      rfl

/-- What holds of an ENC's loan at every moment of a schedule without RESET. -/
def EncFollowed (start : State) (h r : Word) (s : State) : Prop :=
  NoReset s.turns ∧ (EncLent start h r s ∨ EncEnded start h r s)

theorem EncLent.of_step (hl : EncLent start h r s) (hstep : step s = .next s') (hn : NoReset s.turns) :
    EncLent start h r s' ∨ EncEnded start h r s' := by
  have turns_free : ∀ ts, EncLent start h r (s.setTurns ts) := fun ts =>
    have ⟨taken, hrun⟩ := hl.running
    { hl with running := ⟨taken, { hrun with cursor := hrun.cursor.of_eq rfl rfl rfl rfl }⟩ }
  obtain rfl | ⟨ts, -, he | ⟨m, hm, hmove⟩⟩ := step_cases hstep
  · exact .inl hl
  · exact (turns_free ts).of_engineMove (engineStep_move he)
  · exact .inl ((turns_free ts).of_hostMove hmove (hn.ne_reset hm))

theorem step_keeps_encFollowed (hstep : step s = .next s') (hf : EncFollowed start h r s) :
    EncFollowed start h r s' := by
  obtain ⟨hn, hl | he⟩ := hf
  · exact ⟨hn.of_suffix (step_turns_suffix hstep), hl.of_step hstep hn⟩
  · exact ⟨hn.of_suffix (step_turns_suffix hstep), .inr (he.of_viewGrows (step_view_grows hstep hn))⟩

end EverySchedule

/-- On the buffer's own cells, the wire bits past the buffer count for nothing. -/
theorem EncOutcome.encodedCells {before after : Memory} {total : Nat} {taken : List Token} {err : Bool}
    (h : EncOutcome (· < total) before after total taken err) : EncodedCells before after total (wireBits taken) := by
  intro a ha
  rw [h.cells a ha, encodedCell_take, if_pos ha]

/-- Settles O50: along every schedule without RESET the ENC has the buffer or its outcome is recorded, and the records
named are those of this one loan. -/
theorem encodeIsIndependentOfTheSchedule : Obligations.EncodeIsIndependentOfTheSchedule := by
  intro s t s' h r n m tokens hp hcov hn hexec hrun hloans htakes
  obtain rfl := next_inj (exec_enc_idle h r hp ▸ hexec)
  obtain ⟨-, hl | he⟩ := run_keeps step_keeps_encFollowed hrun ⟨hn, .inl (encLent_issue s h r)⟩
  · exact absurd (hl.loans.symm.trans hloans) (List.cons_ne_self _ _).symm
  · obtain ⟨m', taken, err, hout, hm, htaken, later, hlater⟩ := he
    rw [hloans] at hm
    rw [htakes] at htaken
    obtain ⟨rfl, -⟩ := List.cons.inj (hm.eq_of_length rfl)
    obtain ⟨rfl, -⟩ := List.cons.inj (htaken.eq_of_length rfl)
    rw [List.reverse_reverse, ← hout.err_eq]
    exact ⟨hout.encodedCells, later, hlater.symm⟩

end Sys2Proof.Machine

namespace Sys2Proof.Machine

/-! ### Runs that reach a goal -/

theorem run_add {j k : Nat} {s t : State} {o : Result} (h : run j s = .next t) (ho : run k t = o) :
    run (j + k) s = o := by
  induction j generalizing s with
  | zero =>
    obtain rfl := next_inj h
    rwa [Nat.zero_add]
  | succ j ih =>
    rw [Nat.add_right_comm]
    simp only [run] at h
    split at h
    case h_1 u hu => exact run_succ hu (ih h)
    case h_2 => cases h
    case h_3 => cases h

/-- A run that comes nearer to `Q` with every step reaches it: `P k` says of a state that `k` steps are enough. -/
theorem run_of_decreasing {P : Nat → State → Prop} {Q : State → Prop}
    (hstep : ∀ k s, P k s → Q s ∨ ∃ j s', j < k ∧ step s = .next s' ∧ P j s') {k : Nat} {s : State} (hs : P k s) :
    ∃ n s', n ≤ k ∧ run n s = .next s' ∧ Q s' := by
  induction k using Nat.strong_induction_on generalizing s with
  | _ k ih =>
    obtain hq | ⟨j, s', hj, hs', hP⟩ := hstep k s hs
    · exact ⟨0, s, Nat.zero_le _, rfl, hq⟩
    · obtain ⟨n, u, hn, hrun, hq⟩ := ih j hj hP
      exact ⟨n + 1, u, by omega, run_succ hs' hrun, hq⟩

/-- With no turn left an idle block stays as it is. -/
theorem run_idle {s : State} (hp : s.phase = .idle) (ht : s.turns = []) (k : Nat) : run k s = .next s := by
  have hstep : step s = .next s := by
    simp only [step, takeTurn, ht]
    exact engineStep_of_engineHolds (engineHolds_of_idle hp)
  induction k with
  | zero => rfl
  | succ k ih => exact run_succ hstep ih

/-! ### The program of an ENC -/

/-- What is left of the program of an ENC when the tokens `rest` are still to be pushed. -/
def frameTurns (rest : List Token) (ts : List Turn) : List Turn :=
  rest.map (fun t => .line (.push t)) ++ .line .popRsp :: ts

theorem encodeProgram_append (h r : Word) (tokens : List Token) (ts : List Turn) :
    encodeProgram h r tokens ++ ts = .line (.issue (encode (.enc h r))) :: frameTurns tokens ts := by
  simp [encodeProgram, frameTurns]

/-- At least POPR is left. -/
theorem frameTurns_eq_cons (rest : List Token) (ts : List Turn) : ∃ m us, frameTurns rest ts = .line m :: us := by
  cases rest with
  | nil => exact ⟨_, _, rfl⟩
  | cons t rest => exact ⟨_, _, rfl⟩

/-- A frame is at its end exactly when its end token has come. -/
theorem any_tokenIsEnd_iff {taken rest : List Token} {d : List Byte} {e : Token} (he : tokenIsEnd e = true)
    (h : taken ++ rest = payloadFrame d e) : taken.any tokenIsEnd = true ↔ rest = [] := by
  induction d generalizing taken with
  | nil =>
    cases taken with
    | nil => simp_all [payloadFrame]
    | cons t taken =>
      obtain ⟨rfl, htail⟩ := List.cons.inj h
      simp [he, (List.append_eq_nil_iff.1 htail).2]
  | cons b d ih =>
    cases taken with
    | nil => simp_all [payloadFrame]
    | cons t taken =>
      obtain ⟨rfl, htail⟩ := List.cons.inj h
      rw [List.any_cons, tokenIsEnd_dataToken, Bool.false_or]
      exact ih htail

theorem any_tokenIsEnd_of_unterminated {tokens : List Token} (h : Unterminated tokens) :
    tokens.any tokenIsEnd = false :=
  List.any_eq_false.2 fun t ht he => h t ht (fetchedByte_of_end he)

/-- The program of an ENC begun in `start`, its issue done: the tokens `taken` of the frame are taken, the next may be
in PIN, and `rest` is to be pushed; the rest of the host's side is as it was. -/
structure OnProgram (start : State) (frame : List Token) (ts : List Turn) (taken rest : List Token) (s : State) :
    Prop where
  turns : s.turns = frameTurns rest ts
  tokens : taken ++ (s.pin.toList ++ rest) = frame
  srcEnd : s.srcEnd = taken.any tokenIsEnd
  dout : s.dout = start.dout
  outputs : s.host.outputs = start.host.outputs
  responses : s.host.responses = start.host.responses

/-- The ENC of the program has the buffer. -/
structure ProgramLent (start : State) (h r : Word) (frame : List Token) (ts : List Turn) (taken rest : List Token)
    (s : State) : Prop extends OnProgram start frame ts taken rest s where
  running : EncRunning (fun _ => True) start.mem start.host.takes taken s
  h_eq : s.h = h
  r_eq : s.r = r
  rsp : s.rsp = none

/-- The ENC of the program has answered, and drains the rest of the frame. -/
structure ProgramAnswered (start : State) (h r : Word) (frame : List Token) (ts : List Turn) (taken rest : List Token)
    (s : State) : Prop extends OnProgram start frame ts taken rest s where
  phase : s.phase = if s.srcEnd then .idle else .encDrain
  takes : s.host.takes = taken.reverse :: start.host.takes
  answer : ∃ err, s.rsp = some (responseWord err 0) ∧
    EncOutcome (fun _ => True) start.mem s.mem (h.toNat * r.toNat) taken err

/-- A bound of the steps up to the program's POPR, `bits` being the number of bit steps (R196). -/
def stepsLeft (bits : Nat) (rest : List Token) (s : State) : Nat :=
  2 * rest.length + s.pin.toList.length +
    match s.phase with
    | .encFetch => bits - position s + 2
    | .encBit => bits - position s + 2
    | .resp => 1
    | _ => 0

theorem stepsLeft_le (bits : Nat) (rest : List Token) (s : State) :
    stepsLeft bits rest s ≤ 2 * rest.length + s.pin.toList.length + (bits - position s + 2) := by
  unfold stepsLeft
  split <;> omega

section Program

variable {start s : State} {h r : Word} {frame : List Token} {ts : List Turn} {taken rest : List Token} {t : Token}
  {d : List Byte} {e : Token} {bits : Nat}

/-- While the engine can step, the program lets it (R79). -/
theorem OnProgram.step_engine (ho : OnProgram start frame ts taken rest s) (hh : engineHolds s = false) :
    step s = engineStep s := by
  obtain ⟨m, us, hcons⟩ := frameTurns_eq_cons rest ts
  exact step_line_engine (ho.turns.trans hcons) hh

/-- When the engine holds and PIN is empty, the program pushes the next token (R79). -/
theorem OnProgram.step_push (ho : OnProgram start frame ts taken (t :: rest) s) (hh : engineHolds s = true)
    (hq : s.pin = none) : step s = .next ((s.setTurns (frameTurns rest ts)).putPin t) := by
  rw [step_line_move ho.turns hh (by simp [moveEnabled, hq])]
  change pushMove t (s.setTurns (frameTurns rest ts)) = _
  simp [pushMove, hq]

theorem OnProgram.push (ho : OnProgram start frame ts taken (t :: rest) s) (hq : s.pin = none) :
    OnProgram start frame ts taken rest ((s.setTurns (frameTurns rest ts)).putPin t) :=
  { ho with turns := rfl, tokens := by simpa [hq] using ho.tokens }

/-- Until the end token is taken, the frame has a token for the engine to wait for. -/
theorem OnProgram.rest_ne_nil (ho : OnProgram start (payloadFrame d e) ts taken rest s) (he : tokenIsEnd e = true)
    (hsrc : s.srcEnd = false) (hq : s.pin = none) : rest ≠ [] := by
  have hiff := any_tokenIsEnd_iff he ho.tokens
  rw [← ho.srcEnd, hsrc, hq] at hiff
  simpa using hiff

/-- A step of the engine that takes the token in PIN. -/
theorem OnProgram.take (ho : OnProgram start frame ts taken rest s) (hq : s.pin = some t) {s' : State}
    (hturns : s'.turns = s.turns) (hpin : s'.pin = none) (hsrc : s'.srcEnd = (s.srcEnd || tokenIsEnd t))
    (hdout : s'.dout = s.dout) (hout : s'.host.outputs = s.host.outputs)
    (hresp : s'.host.responses = s.host.responses) : OnProgram start frame ts (taken ++ [t]) rest s' where
  turns := hturns.trans ho.turns
  tokens := by simpa [hpin, hq] using ho.tokens
  srcEnd := by simp [hsrc, ho.srcEnd]
  dout := hdout.trans ho.dout
  outputs := hout.trans ho.outputs
  responses := hresp.trans ho.responses

theorem ProgramLent.push (hl : ProgramLent start h r frame ts taken (t :: rest) s) (hq : s.pin = none) :
    ProgramLent start h r frame ts taken rest ((s.setTurns (frameTurns rest ts)).putPin t) :=
  { hl.toOnProgram.push hq with
    running := { hl.running with cursor := hl.running.cursor.of_eq rfl rfl rfl rfl }
    h_eq := hl.h_eq
    r_eq := hl.r_eq
    rsp := hl.rsp }

theorem ProgramAnswered.push (ha : ProgramAnswered start h r frame ts taken (t :: rest) s) (hq : s.pin = none) :
    ProgramAnswered start h r frame ts taken rest ((s.setTurns (frameTurns rest ts)).putPin t) :=
  { ha.toOnProgram.push hq with
    phase := ha.phase
    takes := ha.takes
    answer := ha.answer }

theorem ProgramLent.fetch_token (hl : ProgramLent start h r frame ts taken rest s) (hp : s.phase = .encFetch)
    (hq : s.pin = some t) :
    ProgramLent start h r frame ts (taken ++ [t]) rest
      ((((s.takePin t).noteEnd t).setCur (fetchedByte t)).setPhase .encBit) :=
  have ho : OnProgram start frame ts (taken ++ [t]) rest
      ((((s.takePin t).noteEnd t).setCur (fetchedByte t)).setPhase .encBit) :=
    hl.toOnProgram.take hq rfl rfl rfl rfl rfl rfl
  { ho with
    running := hl.running.fetch_token hp t
    h_eq := hl.h_eq
    r_eq := hl.r_eq
    rsp := hl.rsp }

theorem ProgramAnswered.drain (ha : ProgramAnswered start h r frame ts taken rest s) (hsrc : s.srcEnd = false)
    (hq : s.pin = some t) :
    ProgramAnswered start h r frame ts (taken ++ [t]) rest
      (((s.takePin t).noteEnd t).setPhase (if tokenIsEnd t then .idle else .encDrain)) := by
  obtain ⟨err, hrsp, hout⟩ := ha.answer
  have ho : OnProgram start frame ts (taken ++ [t]) rest
      (((s.takePin t).noteEnd t).setPhase (if tokenIsEnd t then .idle else .encDrain)) :=
    ha.toOnProgram.take hq rfl rfl rfl rfl rfl rfl
  exact { ho with
    phase := by simp [hsrc]
    takes := by simp [ha.takes, recordTake]
    answer := ⟨err, hrsp, hout.append [t]⟩ }

/-- The RESP step answers the program's ENC (R44, R110). -/
theorem ProgramLent.respond (hl : ProgramLent start h r frame ts taken rest s) (hp : s.phase = .resp) :
    ProgramAnswered start h r frame ts taken rest
      (((endEncLoan s).putRsp (responseWord s.rc s.res)).setPhase (phaseAfterResponse s)) :=
  { hl.toOnProgram with
    phase := by cases hsrc : s.srcEnd <;> simp [phaseAfterResponse, hl.running.op, hsrc]
    takes := hl.running.takes
    answer := ⟨s.rc, by simp [hl.running.res], by
      have hout := hl.running.resp hp
      rwa [hl.h_eq, hl.r_eq] at hout⟩ }

/-- The program of an ENC, with `k` steps left at most up to its POPR. -/
def ProgramGoesOn (start : State) (h r : Word) (frame : List Token) (ts : List Turn) (bits k : Nat) (s : State) :
    Prop :=
  ∃ taken rest, (ProgramLent start h r frame ts taken rest s ∨ ProgramAnswered start h r frame ts taken rest s) ∧
    stepsLeft bits rest s = k

theorem ProgramLent.goesOn (hl : ProgramLent start h r frame ts taken rest s) (bits : Nat) :
    ProgramGoesOn start h r frame ts bits (stepsLeft bits rest s) s :=
  ⟨taken, rest, .inl hl, rfl⟩

theorem ProgramAnswered.goesOn (ha : ProgramAnswered start h r frame ts taken rest s) (bits : Nat) :
    ProgramGoesOn start h r frame ts bits (stepsLeft bits rest s) s :=
  ⟨taken, rest, .inr ha, rfl⟩

/-- The next step brings the program nearer to its POPR. -/
def ProgramAdvances (start : State) (h r : Word) (frame : List Token) (ts : List Turn) (bits k : Nat) (s : State) :
    Prop :=
  ∃ j s', j < k ∧ step s = .next s' ∧ ProgramGoesOn start h r frame ts bits j s'

/-- In ENC_FETCH the next token is pushed, or taken. -/
theorem ProgramLent.advance_fetch (hl : ProgramLent start h r (payloadFrame d e) ts taken rest s)
    (he : tokenIsEnd e = true) (hp : s.phase = .encFetch) :
    ProgramAdvances start h r (payloadFrame d e) ts bits (stepsLeft bits rest s) s := by
  cases hq : s.pin with
  | none =>
    have hsrc : s.srcEnd = false := by
      rw [hl.srcEnd]
      exact any_tokenIsEnd_of_unterminated (hl.running.fetch hp).1
    obtain ⟨t, rest', rfl⟩ := List.exists_cons_of_ne_nil (hl.rest_ne_nil he hsrc hq)
    refine ⟨_, _, ?_, hl.step_push (engineHolds_of_pin_empty (.inl hp) hq) hq, (hl.push hq).goesOn bits⟩
    simp [stepsLeft, position, hp, hq]
    omega
  | some t =>
    have hstep := (hl.step_engine (by simp [engineHolds, hp, hq])).trans (engineStep_encFetch hp hq)
    refine ⟨_, _, ?_, hstep, (hl.fetch_token hp hq).goesOn bits⟩
    simp [stepsLeft, position, hp, hq]

/-- In ENC_BIT a bit is written, or the error is raised; the cell it needs is among the first `bits`. -/
theorem ProgramLent.advance_bit (hl : ProgramLent start h r frame ts taken rest s) (hp : s.phase = .encBit)
    (hbits : exhausted s = false → position s < bits)
    (hcells : ∀ a, a < bits → (Memory.read start.mem a).isSome = true) :
    ProgramAdvances start h r frame ts bits (stepsLeft bits rest s) s := by
  have hengine := hl.step_engine (by simp [engineHolds, hp])
  cases hx : exhausted s with
  | true =>
    have hnext : ProgramLent start h r frame ts taken rest s.raiseOutOfSpace :=
      { hl with running := hl.running.outOfSpace hp hx }
    refine ⟨_, _, ?_, hengine.trans (engineStep_outOfSpace hp hx), hnext.goesOn bits⟩
    simp [stepsLeft, hp]
  | false =>
    have hlt := hbits hx
    obtain ⟨v, hv⟩ : ∃ v, Memory.read s.mem (cellAddress s).toNat = some v := by
      rw [cellAddress_toNat, ← Option.isSome_iff_exists, hl.running.cells _ trivial, Option.isSome_map]
      exact hcells _ hlt
    have hnext : ProgramLent start h r frame ts taken rest
        ((((s.setMem (memAfterBit s v)).advancePos).advanceMask).setPhase (phaseAfterBit s)) :=
      { hl with running := hl.running.write_bit hp hx hv }
    refine ⟨_, _, (stepsLeft_le bits rest _).trans_lt ?_, hengine.trans (engineStep_writeBit hp hx hv),
      hnext.goesOn bits⟩
    have hadv : position ((((s.setMem (memAfterBit s v)).advancePos).advanceMask).setPhase (phaseAfterBit s)) =
        position s + 1 := hl.running.cursor.position_advancePos hx
    simp [stepsLeft, hp, hadv]
    omega

theorem ProgramLent.advance_resp (hl : ProgramLent start h r frame ts taken rest s) (hp : s.phase = .resp) :
    ProgramAdvances start h r frame ts bits (stepsLeft bits rest s) s := by
  have hstep := (hl.step_engine (by simp [engineHolds, hp, hl.rsp])).trans (engineStep_resp hp hl.rsp)
  refine ⟨_, _, ?_, hstep, (hl.respond hp).goesOn bits⟩
  cases hsrc : s.srcEnd <;> simp [stepsLeft, phaseAfterResponse, hp, hl.running.op, hsrc]

/-- Before its end token has come, the rest of the frame is pushed and drained. -/
theorem ProgramAnswered.advance (ha : ProgramAnswered start h r (payloadFrame d e) ts taken rest s)
    (he : tokenIsEnd e = true) (hsrc : s.srcEnd = false) :
    ProgramAdvances start h r (payloadFrame d e) ts bits (stepsLeft bits rest s) s := by
  have hp : s.phase = .encDrain := by simpa [hsrc] using ha.phase
  cases hq : s.pin with
  | none =>
    obtain ⟨t, rest', rfl⟩ := List.exists_cons_of_ne_nil (ha.rest_ne_nil he hsrc hq)
    refine ⟨_, _, ?_, ha.step_push (engineHolds_of_pin_empty (.inr hp) hq) hq, (ha.push hq).goesOn bits⟩
    simp [stepsLeft, hp, hq]
    omega
  | some t =>
    have hstep := (ha.step_engine (by simp [engineHolds, hp, hq])).trans (engineStep_encDrain hp hq)
    refine ⟨_, _, ?_, hstep, (ha.drain hsrc hq).goesOn bits⟩
    cases tokenIsEnd t <;> simp [stepsLeft, hp, hq]

end Program

end Sys2Proof.Machine

namespace Sys2Proof.Machine

/-! ### The whole effect of an ENC (R110, R196) -/

/-- The number of bit steps of an ENC of the data bytes `d` on a buffer of `h` rows of `r` cells (R196). -/
def bitSteps (h r : Word) (d : List Byte) : Nat :=
  min (8 * ((logicalPayload d).length + 1)) (h.toNat * r.toNat)

section Effect

variable {start s s' : State} {h r : Word} {ts : List Turn} {d : List Byte} {e : Token}

theorem length_wireBytes_payloadFrame (he : tokenIsEnd e = true) :
    (wireBytes (payloadFrame d e)).length = (logicalPayload d).length + 1 := by
  simp [wireBytes_payloadFrame d he]

/-- The frame is taken, the response is in RSP, and only POPR is left. -/
def ProgramAtPop (start : State) (h r : Word) (d : List Byte) (e : Token) (ts : List Turn) (s : State) : Prop :=
  ProgramAnswered start h r (payloadFrame d e) ts (payloadFrame d e) [] s ∧ s.phase = .idle ∧ s.pin = none

theorem ProgramAnswered.atPop {taken rest : List Token}
    (ha : ProgramAnswered start h r (payloadFrame d e) ts taken rest s) (he : tokenIsEnd e = true)
    (hsrc : s.srcEnd = true) : ProgramAtPop start h r d e ts s := by
  have hnil := (any_tokenIsEnd_iff he ha.tokens).1 (ha.srcEnd ▸ hsrc)
  obtain ⟨hq, rfl⟩ := List.append_eq_nil_iff.1 hnil
  have htaken := ha.tokens
  rw [hnil, List.append_nil] at htaken
  subst htaken
  exact ⟨ha, by rw [ha.phase, hsrc]; rfl, Option.toList_eq_nil_iff.1 hq⟩

/-- Every step of the program brings it nearer to its POPR. -/
theorem ProgramGoesOn.advance {k : Nat}
    (hg : ProgramGoesOn start h r (payloadFrame d e) ts (bitSteps h r d) k s) (he : tokenIsEnd e = true)
    (hcells : ∀ a, a < bitSteps h r d → (Memory.read start.mem a).isSome = true) :
    ProgramAtPop start h r d e ts s ∨ ProgramAdvances start h r (payloadFrame d e) ts (bitSteps h r d) k s := by
  obtain ⟨taken, rest, hl | ha, rfl⟩ := hg
  · obtain hp | hp | hp := hl.running.phase_cases
    · exact .inr (hl.advance_fetch he hp)
    · refine .inr (hl.advance_bit hp (fun hx => lt_min ?_ ?_) hcells)
      · have hlt := hl.running.position_lt_wireBits hp
        have hle := (wireBytes_prefix taken (s.pin.toList ++ rest)).length_le
        rw [hl.tokens, length_wireBytes_payloadFrame he] at hle
        omega
      · exact hl.h_eq ▸ hl.r_eq ▸ hl.running.cursor.position_lt hx
    · exact .inr (hl.advance_resp hp)
  · cases hsrc : s.srcEnd with
    | false => exact .inr (ha.advance he hsrc)
    | true => exact .inl (ha.atPop he hsrc)

theorem step_line_enc {us : List Turn} (ht : s.turns = .line (.issue (encode (.enc h r))) :: us)
    (hp : s.phase = .idle) :
    step s = .next ((((s.setTurns us).beginBitCommand .enc h r).openTakes).setPhase .encFetch) := by
  rw [step_line_issue ht hp, decodeWord_encode]
  exact exec_enc_idle h r hp

/-- The program of an ENC reaches its POPR, within the bound of R196. -/
theorem encodeProgram_reaches_pop (ts : List Turn) (hp : s.phase = .idle) (hq : s.pin = none) (hr : s.rsp = none)
    (he : tokenIsEnd e = true) (hcells : ∀ a, a < bitSteps h r d → (Memory.read s.mem a).isSome = true) :
    ∃ n u, n + 1 ≤ 2 * (d.length + 1) + bitSteps h r d + 4 ∧
      run n (s.setTurns (encodeProgram h r (payloadFrame d e) ++ ts)) = .next u ∧ ProgramAtPop s h r d e ts u := by
  have hissue := step_line_enc (s := s.setTurns (encodeProgram h r (payloadFrame d e) ++ ts))
    (encodeProgram_append h r _ ts) hp
  have hlent : ProgramLent s h r (payloadFrame d e) ts [] (payloadFrame d e)
      (((s.setTurns (frameTurns (payloadFrame d e) ts)).beginBitCommand .enc h r).openTakes.setPhase .encFetch) :=
    { turns := rfl
      tokens := by simp [State.beginBitCommand, hq]
      srcEnd := rfl
      dout := rfl
      outputs := rfl
      responses := rfl
      running := encRunning_issue _ (s.setTurns (frameTurns (payloadFrame d e) ts)) h r
      h_eq := rfl
      r_eq := rfl
      rsp := hr }
  obtain ⟨n, u, hn, hrun, hu⟩ :=
    run_of_decreasing (fun k a hg => hg.advance he hcells) (hlent.goesOn (bitSteps h r d))
  refine ⟨n + 1, u, ?_, run_succ hissue hrun, hu⟩
  have hstart := hn.trans (stepsLeft_le _ _ _)
  simp [State.beginBitCommand, hq, payloadFrame] at hstart
  omega

/-- What the program of an ENC leaves, its POPR done (R110). -/
structure EncodeResult (start : State) (h r : Word) (d : List Byte) (e : Token) (ts : List Turn) (s : State) :
    Prop where
  phase : s.phase = .idle
  pin : s.pin = none
  rsp : s.rsp = none
  dout : s.dout = start.dout
  turns : s.turns = ts
  cells : EncodedOn (fun _ => True) start.mem s.mem ((wireBits (payloadFrame d e)).take (h.toNat * r.toNat))
  responses : s.host.responses =
    responseWord (decide (h.toNat * r.toNat < 8 * ((logicalPayload d).length + 1))) 0 :: start.host.responses
  takes : s.host.takes = (payloadFrame d e).reverse :: start.host.takes
  outputs : s.host.outputs = start.host.outputs

theorem ProgramAtPop.pop (hu : ProgramAtPop start h r d e ts s) (he : tokenIsEnd e = true) :
    ∃ s', step s = .next s' ∧ EncodeResult start h r d e ts s' := by
  obtain ⟨ha, hp, hq⟩ := hu
  obtain ⟨err, hrsp, hout⟩ := ha.answer
  refine ⟨_, step_line_popRsp ha.turns hp hrsp, ?_⟩
  have herr := hout.err_eq
  rw [length_wireBytes_payloadFrame he] at herr
  exact {
    phase := hp
    pin := hq
    rsp := rfl
    dout := ha.dout
    turns := rfl
    cells := hout.cells
    responses := by simp [ha.responses, herr]
    takes := ha.takes
    outputs := ha.outputs }

theorem encodeProgram_run (ts : List Turn) (hp : s.phase = .idle) (hq : s.pin = none) (hr : s.rsp = none)
    (he : tokenIsEnd e = true) (hcells : ∀ a, a < bitSteps h r d → (Memory.read s.mem a).isSome = true) :
    ∃ n s', n ≤ 2 * (d.length + 1) + bitSteps h r d + 4 ∧
      run n (s.setTurns (encodeProgram h r (payloadFrame d e) ++ ts)) = .next s' ∧ EncodeResult s h r d e ts s' := by
  obtain ⟨n, u, hn, hrun, hu⟩ := encodeProgram_reaches_pop ts hp hq hr he hcells
  obtain ⟨s', hpop, hres⟩ := hu.pop he
  exact ⟨n + 1, s', hn, run_add hrun (run_succ hpop rfl), hres⟩

/-- Whenever a run of the program of an ENC has used up its turns, the program's effect is complete. -/
theorem encodeProgram_run_end {k : Nat} (hp : s.phase = .idle) (hq : s.pin = none) (hr : s.rsp = none)
    (he : tokenIsEnd e = true) (hcells : ∀ a, a < bitSteps h r d → (Memory.read s.mem a).isSome = true)
    (hrun : run k (s.setTurns (encodeProgram h r (payloadFrame d e))) = .next s') (hend : s'.turns = []) :
    EncodeResult s h r d e [] s' := by
  obtain ⟨n, u, -, hreach, hu⟩ := encodeProgram_reaches_pop [] hp hq hr he hcells
  rw [List.append_nil] at hreach
  obtain ⟨t, hpop, hres⟩ := hu.pop he
  obtain hlt | hle := Nat.lt_or_ge n k
  · obtain ⟨j, rfl⟩ := Nat.exists_eq_add_of_lt hlt
    have hlast := run_add hreach (run_succ hpop (run_idle hres.phase hres.turns j))
    rw [Nat.add_assoc, hlast] at hrun
    exact next_inj hrun ▸ hres
  · obtain ⟨j, rfl⟩ := Nat.exists_eq_add_of_le hle
    have hleft := run_turns_suffix ((run_add hrun rfl).symm.trans hreach)
    rw [hend, hu.1.turns, List.suffix_nil] at hleft
    cases hleft

end Effect

/-! ### What the wire bits leave in a cell -/

/-- Of the first `n` bits those there are perturb their cells, and the cells past them are untouched (R110). -/
theorem encodedCell_take_eq (q : List Bool) (n a : Nat) (v : Byte) :
    encodedCell (q.take n) a v = if a < min q.length n then perturb v (q.getD a false) else v := by
  rw [encodedCell_take]
  by_cases hn : a < n
  · by_cases hq : a < q.length
    · simp [encodedCell, hn, hq]
    · simp [encodedCell, hn, hq]
  · simp [hn]

/-- Writing the same bits again changes no cell (R114). -/
theorem encodedCell_idem (q : List Bool) (a : Nat) (v : Byte) :
    encodedCell q a (encodedCell q a v) = encodedCell q a v := by
  unfold encodedCell
  cases q[a]? with
  | none => rfl
  | some b => exact perturb_idem v b

theorem covers_of_encodedOn {before after : Memory} {q : List Bool} {h r : Word}
    (hc : EncodedOn (fun _ => True) before after q) (hcov : covers before h r) : covers after h r := by
  intro a ha
  rw [hc a trivial, Option.isSome_map]
  exact hcov a ha

/-- A covered buffer holds every cell an ENC visits. -/
theorem covers.visited {m : Memory} {h r : Word} (hcov : covers m h r) (d : List Byte) {a : Nat}
    (ha : a < bitSteps h r d) : (Memory.read m a).isSome = true :=
  hcov a (ha.trans_le (Nat.min_le_right _ _))

/-! ### The statements about the program of an ENC -/

/-- Settles O44: the program's run up to its POPR, and the pop. -/
theorem encodeHasTheWholeEffectOfTheRule : Obligations.EncodeHasTheWholeEffectOfTheRule := by
  intro s h r d e ts hp hq hr he total bits hcells
  obtain ⟨n, s', hn, hrun, hres⟩ := encodeProgram_run ts hp hq hr he hcells
  refine ⟨n, s', hn, hrun, hres.phase, hres.pin, hres.rsp, hres.dout, hres.turns, fun a => ?_, hres.responses,
    hres.takes, hres.outputs⟩
  have hwire : wireBits (payloadFrame d e) = (logicalPayload d ++ [0]).flatMap bits8 := by
    rw [wireBits, wireBytes_payloadFrame d he]
  have hlen : ((logicalPayload d ++ [0]).flatMap bits8).length = bits := by
    rw [length_flatMap_bits8, List.length_append, List.length_singleton]
  rw [hres.cells a trivial, hwire]
  congr 1
  funext v
  rw [encodedCell_take_eq, hlen]

/-- Settles O47: the wire bits of a payload shorter than the capacity fit, and no others (R92). -/
theorem encodeSucceedsExactlyBelowCapacity : Obligations.EncodeSucceedsExactlyBelowCapacity := by
  intro s h r d e hp hq hr he hcov
  obtain ⟨n, s', -, hrun, hres⟩ := encodeProgram_run [] hp hq hr he fun a ha => hcov.visited d ha
  rw [List.append_nil] at hrun
  refine ⟨n, s', _, hrun, hres.turns, hres.phase, hres.responses, ?_⟩
  rw [responseErr_responseWord, decide_eq_false_iff_not, capacity_toNat]
  omega

/-- Settles O48: the second run writes the same bits into the cells of the first. -/
theorem encodingAgainChangesNoCell : Obligations.EncodingAgainChangesNoCell := by
  intro s s' s'' h r d e n k hp hq hr he hcov hrun hend hagain hend'
  have hfirst := encodeProgram_run_end hp hq hr he (fun a ha => hcov.visited d ha) hrun hend
  have hcov' := covers_of_encodedOn hfirst.cells hcov
  have hsecond := encodeProgram_run_end hfirst.phase hfirst.pin hfirst.rsp he (fun a ha => hcov'.visited d ha)
    hagain hend'
  intro a
  rw [hsecond.cells a trivial, hfirst.cells a trivial, Option.map_map]
  congr 1
  funext v
  exact encodedCell_idem _ a v

end Sys2Proof.Machine

/-! PROOFS. The statements about 42_decode.md: the steps of DEC (R132 to R135), the groups of cells it gives (R136), and the
whole effect of a DEC, run by a program, after an ENC (R141), and under every schedule. -/

namespace Sys2Proof.Machine

/-! ### The steps of DEC (R132, R134, R135) -/

section DecSteps

variable {s : State}

theorem engineStep_cellsUsedUp (hp : s.phase = .decBit) (hx : exhausted s = true) :
    engineStep s = .next (s.setPhase .decEnd) := by
  simp [engineStep, decBit, hp, hx]

theorem engineStep_gatherBit {v : Byte} (hp : s.phase = .decBit) (hx : exhausted s = false)
    (hv : Memory.read s.mem (cellAddress s).toNat = some v) :
    engineStep s =
      .next ((((s.setCur (gathered s v)).advancePos).advanceMask).setPhase (phaseAfterGather s (gathered s v))) := by
  simp [engineStep, decBit, hp, hx, hv]

theorem engineStep_emit (hp : s.phase = .decEmit) (hd : s.dout = none) :
    engineStep s = .next (((s.putDout (dataToken s.cur)).setCur 0).setPhase .decBit) := by
  simp [engineStep, decEmit, hp, hd]

theorem engineStep_putEnd (hp : s.phase = .decEnd) (hd : s.dout = none) :
    engineStep s = .next (((s.endLoan).putDout endToken).setPhase .idle) := by
  simp [engineStep, decEnd, hp, hd]

/-- In DEC_EMIT and in DEC_END the engine waits for DOUT (R134, R135). -/
theorem engineHolds_of_dout_full (hp : s.phase = .decEmit ∨ s.phase = .decEnd) (hd : s.dout ≠ none) :
    engineHolds s = true := by
  obtain hp | hp := hp <;> simp [engineHolds, hp, Option.isSome_iff_ne_none, hd]

/-- R46 leaves the bit of weight MASK 0 in CUR, so setting it is adding it (R132). -/
theorem Inv.cur_or_mask (hi : Inv s) (hp : s.phase = .decBit) : s.cur ||| s.mask = s.cur + s.mask := by
  have hlow := hi.dec_gathered hp
  rw [BitVec.and_or_distrib_left] at hlow
  exact (BitVec.add_eq_or_of_and_eq_zero _ _ (BitVec.or_eq_zero_iff.1 hlow).1).symm

end DecSteps

/-! ### The steps of DEC: the statements -/

/-- Settles O20: the two branches of DEC_BIT, the named tests and advances written out. -/
theorem decBitGathersOneBit : Obligations.DecBitGathersOneBit := by
  intro s hp
  refine ⟨fun hi => hi.cur_or_mask hp, engineStep_cellsUsedUp hp, ?_⟩
  intro v hx hv c
  have hc : gathered s v = c := if_congr (lsb_iff v) rfl rfl
  have hlast : phaseAfterGather s c = if s.mask = 1 then (if c = 0 then .decEnd else .decEmit) else .decBit := by
    simp [phaseAfterGather, lastBit]
  rw [engineStep_gatherBit hp hx hv, hc, hlast]
  rfl

/-- Settles O21: a full DOUT holds the step, and an empty one takes CUR as a data token. -/
theorem decEmitPutsTheByte : Obligations.DecEmitPutsTheByte :=
  fun _ hp => ⟨fun hd => engineStep_of_engineHolds (engineHolds_of_dout_full (.inl hp) hd), engineStep_emit hp⟩

/-- Settles O22: a full DOUT holds the step, and an empty one takes END, with which the loan ends. -/
theorem decEndPutsTheEndToken : Obligations.DecEndPutsTheEndToken :=
  fun _ hp => ⟨fun hd => engineStep_of_engineHolds (engineHolds_of_dout_full (.inr hp) hd), engineStep_putEnd hp⟩

end Sys2Proof.Machine

namespace Sys2Proof.Machine

/-! ### Groups of cells (R12, R136) -/

theorem bits8_byte8 {q : List Bool} (hq : q.length = 8) : bits8 (byte8 q) = q := by
  have hall : ∀ a b c d e f g h : Bool, bits8 (byte8 [a, b, c, d, e, f, g, h]) = [a, b, c, d, e, f, g, h] := by decide
  match q, hq with
  | [a, b, c, d, e, f, g, h], _ => exact hall a b c d e f g h

/-- The first cell of a group gives the bit of weight 128, the last the bit of weight 1. -/
theorem cellGroup_getLsbD (m : Memory) (n : Nat) {k : Nat} (hk : k < 8) :
    (cellGroup m n).getLsbD k = cellLsb m (8 * n + (7 - k)) := by
  have hbits : bits8 (cellGroup m n) = (List.range 8).map fun j => cellLsb m (8 * n + j) :=
    bits8_byte8 (by simp)
  have hbit := bits8_getElem? (cellGroup m n) (j := 7 - k) (by omega)
  rw [hbits, List.getElem?_map, List.getElem?_range (by omega), show 7 - (7 - k) = k by omega] at hbit
  exact (Option.some.inj hbit).symm

/-- The bytes of the groups from `n` on that a DEC on `total` cells gives; from 0 on they are `decodedBytes` (R136). -/
def groupsLeft (m : Memory) (total n : Nat) : List Byte := groupsFrom m (total / 8 - n) n

/-- A group with all its cells in the buffer is given and followed by the others, or is the terminator (R133). -/
theorem groupsLeft_of_le {m : Memory} {total n : Nat} (h : 8 * (n + 1) ≤ total) :
    groupsLeft m total n =
      if cellGroup m n = 0 then [] else cellGroup m n :: groupsLeft m total (n + 1) := by
  rw [groupsLeft, show total / 8 - n = total / 8 - (n + 1) + 1 by omega, groupsFrom, groupsLeft]

/-- A group that is not whole is dropped (R138). -/
theorem groupsLeft_of_lt {m : Memory} {total n : Nat} (h : total < 8 * (n + 1)) : groupsLeft m total n = [] := by
  rw [groupsLeft, show total / 8 - n = 0 by omega, groupsFrom]

/-- `g` without its bits of weight below `2 ^ k`: what CUR holds of the group `g` before those are gathered. -/
def upperBits (g : Byte) (k : Nat) : Byte := (g >>> k) <<< k

theorem upperBits_zero (g : Byte) : upperBits g 0 = g := by
  simp [upperBits]

theorem upperBits_eight (g : Byte) : upperBits g 8 = 0 := by
  simp [upperBits]

theorem upperBits_getLsbD (g : Byte) (k i : Nat) :
    (upperBits g k).getLsbD i = (decide (k ≤ i) && g.getLsbD i) := by
  by_cases hi : k ≤ i
  · by_cases h8 : i < 8
    · simp [upperBits, hi, h8, Nat.not_lt.2 hi]
    · rw [BitVec.getLsbD_of_ge _ _ (Nat.not_lt.1 h8), BitVec.getLsbD_of_ge _ _ (Nat.not_lt.1 h8), Bool.and_false]
  · simp [upperBits, hi, Nat.lt_of_not_le hi]

/-- The cell of weight `2 ^ k` adds its bit to those gathered before (R132). -/
theorem gathered_upperBits {s : State} {g v : Byte} {k : Nat} (hk : k < 8) (hm : s.mask = BitVec.twoPow 8 k)
    (hc : s.cur = upperBits g (k + 1)) (hv : lsb v = g.getLsbD k) : gathered s v = upperBits g k := by
  apply BitVec.eq_of_getLsbD_eq
  intro i hi
  rw [upperBits_getLsbD, gathered, hv, hm, hc]
  obtain hik | rfl | hik := Nat.lt_trichotomy i k
  · cases g.getLsbD k <;> simp [upperBits_getLsbD, hik.not_ge, hik.ne', Nat.not_le.2 (hik.trans k.lt_succ_self)]
  · have hlow : (upperBits g (i + 1)).getLsbD i = false := by simp [upperBits_getLsbD]
    cases g.getLsbD i <;> simp [-BitVec.getLsbD_eq_getElem, hlow, hi]
  · cases g.getLsbD k <;> simp [upperBits_getLsbD, hik.le, hik.ne, show k + 1 ≤ i from hik]

end Sys2Proof.Machine

namespace Sys2Proof.Machine

/-! ### A DEC that has the buffer -/

/-- A popped token goes from DOUT to the host's list, so those put so far are the same. -/
theorem outputsSoFar_takeDout {s : State} {t : Token} (ht : s.dout = some t) :
    outputsSoFar (s.takeDout t) = outputsSoFar s := by
  simp [outputsSoFar, ht]

theorem cellLsb_eq_lsb {m m' : Memory} {a : Nat} {v : Byte} (h : Memory.read m a = Memory.read m' a)
    (hv : Memory.read m a = some v) : lsb v = cellLsb m' a := by
  rw [cellLsb, ← h, hv, Option.any_some, lsb]

/-- The number of cells a DEC on `total` cells reads (R136). -/
def cellsRead (m : Memory) (total : Nat) : Nat :=
  if (decodedBytes m total).length < total / 8 then 8 * ((decodedBytes m total).length + 1) else total

theorem cellsRead_le (m : Memory) (total : Nat) : cellsRead m total ≤ total := by
  unfold cellsRead
  split <;> omega

/-- A DEC has the buffer of `total` cells, lent to it in `start`: it has put the bytes `given`, and the bytes `rest` are
to come. The cursor, MASK and CUR say how far it is in the group at which `rest` begins. -/
structure DecRunning (start : State) (total : Nat) (given rest : List Byte) (s : State) : Prop where
  lent : lentToDec s = true
  total_eq : s.h.toNat * s.r.toNat = total
  cursor : CursorInRange s
  cells : SameCells s.mem start.mem total
  loans : s.host.loans = start.host.loans
  outputs : outputsSoFar s = (given.map dataToken).reverse ++ outputsSoFar start
  whole : given ++ rest = decodedBytes start.mem total
  /-- Within a group: the weights from `2 ^ k` down are to come. -/
  bit : s.phase = .decBit → rest = groupsLeft start.mem total given.length ∧
    ∃ k, k < 8 ∧ s.mask = BitVec.twoPow 8 k ∧ position s + (k + 1) = 8 * (given.length + 1) ∧
      s.cur = upperBits (cellGroup start.mem given.length) (k + 1)
  /-- Behind a group that is not 0. -/
  emit : s.phase = .decEmit → s.mask = 128 ∧ position s = 8 * (given.length + 1) ∧
    rest = s.cur :: groupsLeft start.mem total (given.length + 1)
  /-- At the end. -/
  stop : s.phase = .decEnd → rest = []

section DecRunning

variable {start s : State} {total : Nat} {given rest : List Byte}

theorem DecRunning.position_le (hd : DecRunning start total given rest s) : position s ≤ total :=
  hd.total_eq ▸ hd.cursor.position_le

/-- DEC_BIT reads no cell behind the terminator's group, and none outside the buffer (R136). -/
theorem DecRunning.position_lt_cellsRead (hd : DecRunning start total given rest s) (hp : s.phase = .decBit)
    (hx : exhausted s = false) : position s < cellsRead start.mem total := by
  obtain ⟨-, k, -, -, hpos, -⟩ := hd.bit hp
  have hlt : position s < total := hd.total_eq ▸ hd.cursor.position_lt hx
  have hlen := congrArg List.length hd.whole
  rw [List.length_append] at hlen
  unfold cellsRead
  split <;> omega

/-- The issue of a DEC: nothing is put and no cell is read (R74, R131). -/
theorem decRunning_issue (s : State) (ts : List Turn) (h r : Word) :
    DecRunning s (h.toNat * r.toNat) [] (decodedBytes s.mem (h.toNat * r.toNat))
      (((s.setTurns ts).beginBitCommand .dec h r).setPhase .decBit) where
  lent := rfl
  total_eq := rfl
  cursor := cursorInRange_of_fresh rfl rfl
  cells _ _ := rfl
  loans := rfl
  outputs := rfl
  whole := rfl
  bit _ := ⟨rfl, 7, by decide, rfl, by
    change (0 : Word).toNat * r.toNat + (0 : Word).toNat + 8 = _
    simp, (upperBits_eight _).symm⟩
  emit := nofun
  stop := nofun

/-- DEC_BIT without a cell left: a group that is not whole is dropped (R138). -/
theorem DecRunning.cellsUsedUp (hd : DecRunning start total given rest s) (hp : s.phase = .decBit)
    (hx : exhausted s = true) : DecRunning start total given rest (s.setPhase .decEnd) := by
  obtain ⟨hrest, k, hk, -, hpos, -⟩ := hd.bit hp
  have hend : position s = total := hd.total_eq ▸ hd.cursor.position_eq hx
  have hnil : rest = [] := hrest.trans (groupsLeft_of_lt (by omega))
  exact { hd with
    lent := rfl
    cursor := hd.cursor.of_eq rfl rfl rfl rfl
    bit := nofun
    emit := nofun
    stop := fun _ => hnil }

/-- DEC_BIT with a cell left: CUR gets the next bit of the group, and the phase says whether the group is whole and
whether it is the terminator (R132, R133). -/
theorem DecRunning.gather_bit {v : Byte} (hd : DecRunning start total given rest s) (hp : s.phase = .decBit)
    (hx : exhausted s = false) (hv : Memory.read s.mem (cellAddress s).toNat = some v) :
    DecRunning start total given rest
      ((((s.setCur (gathered s v)).advancePos).advanceMask).setPhase (phaseAfterGather s (gathered s v))) := by
  obtain ⟨hrest, k, hk, hmask, hpos, hcur⟩ := hd.bit hp
  have hadv : position s.advancePos = position s + 1 := hd.cursor.position_advancePos hx
  have hlt : position s < total := hd.total_eq ▸ hd.cursor.position_lt hx
  rw [cellAddress_toNat] at hv
  have hgather : gathered s v = upperBits (cellGroup start.mem given.length) k := by
    refine gathered_upperBits hk hmask hcur ?_
    rw [cellGroup_getLsbD _ _ hk, show 8 * given.length + (7 - k) = position s by omega]
    exact cellLsb_eq_lsb (hd.cells _ hlt) hv
  have hlast : s.mask = 1 ↔ k = 0 := hmask ▸ weight_eq_one_iff hk
  have hgroup : s.mask = 1 → position s.advancePos = 8 * (given.length + 1) ∧
      rest = if gathered s v = 0 then [] else gathered s v :: groupsLeft start.mem total (given.length + 1) := by
    intro hm
    obtain rfl := hlast.1 hm
    rw [hgather, upperBits_zero, hrest, groupsLeft_of_le (by omega), hadv]
    exact ⟨hpos, rfl⟩
  refine { hd with
    lent := ?_
    cursor := (hd.cursor.advancePos hx).of_eq rfl rfl rfl rfl
    bit := fun hq => ?_
    emit := fun hq => ?_
    stop := fun hq => ?_ }
  · rw [lentToDec_iff, setPhase_phase]
    have := (phaseAfterGather_eq_iff s (gathered s v) _).1 rfl
    tauto
  · have hm : s.mask ≠ 1 := by simpa [phaseAfterGather_eq_iff] using hq
    obtain ⟨j, rfl⟩ := Nat.exists_eq_succ_of_ne_zero (mt hlast.2 hm)
    have hnext : nextMask s.mask = BitVec.twoPow 8 j := by rw [hmask, nextMask_weight hk]
    refine ⟨hrest, j, by omega, hnext, ?_, hgather⟩
    change position s.advancePos + (j + 1) = _
    omega
  · obtain ⟨hm, hc⟩ : s.mask = 1 ∧ gathered s v ≠ 0 := by simpa [phaseAfterGather_eq_iff] using hq
    obtain ⟨hend, hnext⟩ := hgroup hm
    have hfirst : nextMask s.mask = 128 := by rw [hm, nextMask_one]
    exact ⟨hfirst, hend, hnext.trans (if_neg hc)⟩
  · obtain ⟨hm, hc⟩ : s.mask = 1 ∧ gathered s v = 0 := by simpa [phaseAfterGather_eq_iff] using hq
    obtain ⟨-, hnext⟩ := hgroup hm
    exact hnext.trans (if_pos hc)

/-- DEC_EMIT puts the first of the bytes to come (R134). -/
theorem DecRunning.put_byte (hd : DecRunning start total given rest s) (hp : s.phase = .decEmit)
    (hdout : s.dout = none) :
    ∃ rest', rest = s.cur :: rest' ∧
      DecRunning start total (given ++ [s.cur]) rest' (((s.putDout (dataToken s.cur)).setCur 0).setPhase .decBit) := by
  obtain ⟨hmask, hpos, rfl⟩ := hd.emit hp
  have hput : s.host.outputs = (given.map dataToken).reverse ++ outputsSoFar start := by
    rw [← hd.outputs, outputsSoFar, hdout]
    rfl
  refine ⟨_, rfl, { hd with
    lent := rfl
    cursor := hd.cursor.of_eq rfl rfl rfl rfl
    outputs := by simp [outputsSoFar, hput]
    whole := by simpa using hd.whole
    bit := fun _ => ⟨by simp, 7, by decide, hmask, ?_, (upperBits_eight _).symm⟩
    emit := nofun
    stop := nofun }⟩
  change position s + 8 = _
  rw [hpos, List.length_append, List.length_singleton]
  omega

/-- DEC_END puts END behind the bytes of R136 (R135). -/
theorem DecRunning.put_end (hd : DecRunning start total given rest s) (hp : s.phase = .decEnd)
    (hdout : s.dout = none) :
    outputsSoFar (((s.endLoan).putDout endToken).setPhase .idle) =
      endToken :: (((decodedBytes start.mem total).map dataToken).reverse ++ outputsSoFar start) := by
  rw [← hd.whole, hd.stop hp, List.append_nil, ← hd.outputs, outputsSoFar, outputsSoFar, hdout]
  rfl

/-- The host may pop a token at any moment: those put so far are the same. -/
theorem DecRunning.takeDout {t : Token} (hd : DecRunning start total given rest s) (ht : s.dout = some t) :
    DecRunning start total given rest (s.takeDout t) :=
  { hd with
    cursor := hd.cursor.of_eq rfl rfl rfl rfl
    outputs := (outputsSoFar_takeDout ht).trans hd.outputs }

theorem DecRunning.setTurns (hd : DecRunning start total given rest s) (ts : List Turn) :
    DecRunning start total given rest (s.setTurns ts) :=
  { hd with cursor := hd.cursor.of_eq rfl rfl rfl rfl }

end DecRunning

end Sys2Proof.Machine

namespace Sys2Proof.Machine

/-! ### The tokens put so far only grow (R198) -/

section OutputsGrow

variable {s s' : State}

theorem EngineMove.outputs_grow (hm : EngineMove s s') : outputsSoFar s <:+ outputsSoFar s' := by
  cases hm with
  | emit hp hd =>
    rw [outputsSoFar, hd]
    exact List.suffix_cons _ _
  | putEnd hp hd =>
    rw [outputsSoFar, hd]
    exact List.suffix_cons _ _
  | _ => exact List.suffix_refl _

theorem exec_outputsSoFar {i : Instr} (h : exec i s = .next s') : outputsSoFar s' = outputsSoFar s := by
  obtain rfl | ⟨-, ⟨a, b, -, rfl⟩ | ⟨a, b, -, rfl⟩ | ⟨a, b, -, rfl⟩⟩ := exec_cases h <;> rfl

/-- Only RESET loses a token that was put (R180). -/
theorem hostMove_outputsSoFar {m : HostMove} (h : hostMove m s = .next s') (hm : m ≠ .reset) :
    outputsSoFar s' = outputsSoFar s := by
  obtain rfl | ⟨w, -, hw⟩ | ⟨t, -, -, rfl⟩ | ⟨t, -, ht, rfl⟩ | ⟨w, -, -, rfl⟩ | ⟨rfl, -⟩ | ⟨a, v, -, -, -, rfl⟩ |
    ⟨a, v, -, -, rfl⟩ | ⟨l, -, -, rfl⟩ := hostMove_cases h
  case inr.inl => exact exec_outputsSoFar hw
  case inr.inr.inr.inl => exact outputsSoFar_takeDout ht
  case inr.inr.inr.inr.inr.inl => exact absurd rfl hm
  all_goals rfl

theorem step_outputs_grow (h : step s = .next s') (hn : NoReset s.turns) : outputsSoFar s <:+ outputsSoFar s' := by
  obtain rfl | ⟨ts, -, he | ⟨m, hm, hmove⟩⟩ := step_cases h
  · exact List.suffix_refl _
  · exact (engineStep_move he).outputs_grow
  · exact hostMove_outputsSoFar hmove (hn.ne_reset hm) ▸ List.suffix_refl _

end OutputsGrow

/-! ### A DEC under every schedule without RESET (R197) -/

/-- A DEC on `total` cells accepted in `start` still has the buffer. -/
def DecLent (start : State) (total : Nat) (s : State) : Prop :=
  ∃ given rest, DecRunning start total given rest s

/-- The loan of a DEC on `total` cells accepted in `start` has ended, and the records say with what outcome. -/
def DecEnded (start : State) (total : Nat) (s : State) : Prop :=
  (∃ m, SameCells m start.mem total ∧ m :: start.host.loans <:+ s.host.loans) ∧
    endToken :: (((decodedBytes start.mem total).map dataToken).reverse ++ outputsSoFar start) <:+ outputsSoFar s

section EverySchedule

variable {start s s' : State} {total : Nat} {given rest : List Byte}

theorem DecRunning.ended (hd : DecRunning start total given rest s) (hp : s.phase = .decEnd) (hdout : s.dout = none) :
    DecEnded start total (((s.endLoan).putDout endToken).setPhase .idle) := by
  refine ⟨⟨s.mem, hd.cells, ?_⟩, hd.put_end hp hdout ▸ List.suffix_refl _⟩
  exact hd.loans ▸ List.suffix_refl _

/-- Every move of the engine goes on with the DEC or ends its loan. -/
theorem DecRunning.of_engineMove (hd : DecRunning start total given rest s) (hm : EngineMove s s') :
    DecLent start total s' ∨ DecEnded start total s' := by
  have hphase := (lentToDec_iff s).1 hd.lent
  cases hm with
  | hold => exact .inl ⟨_, _, hd⟩
  | cellsUsedUp hp hx => exact .inl ⟨_, _, hd.cellsUsedUp hp hx⟩
  | gatherBit v hp hx hv => exact .inl ⟨_, _, hd.gather_bit hp hx hv⟩
  | emit hp hdout =>
    obtain ⟨rest', -, hnext⟩ := hd.put_byte hp hdout
    exact .inl ⟨_, _, hnext⟩
  | putEnd hp hdout => exact .inr (hd.ended hp hdout)
  | _ => simp_all

/-- The host writes no cell of the lent buffer (R52). -/
theorem DecRunning.storeCell (hd : DecRunning start total given rest s) {a : Nat} (ha : total ≤ a) (v : Byte) :
    DecRunning start total given rest (s.storeCell a v) :=
  { hd with
    cursor := hd.cursor.of_eq rfl rfl rfl rfl
    cells := fun b hb => (Memory.read_write_other s.mem v (hb.trans_le ha).ne').trans (hd.cells b hb) }

/-- No move of the host but RESET disturbs the DEC: it can issue no command, and the buffer is lent. -/
theorem DecRunning.of_hostMove {m : HostMove} (hd : DecRunning start total given rest s)
    (hmove : hostMove m s = .next s') (hm : m ≠ .reset) : DecRunning start total given rest s' := by
  have hbusy : s.phase ≠ .idle := by
    obtain hp | hp | hp := (lentToDec_iff s).1 hd.lent <;> simp [hp]
  obtain rfl | ⟨w, -, hw⟩ | ⟨t, -, -, rfl⟩ | ⟨t, -, ht, rfl⟩ | ⟨w, -, -, rfl⟩ | ⟨rfl, -⟩ | ⟨a, v, -, -, -, rfl⟩ |
    ⟨a, v, -, ha, rfl⟩ | ⟨l, -, hl, -⟩ := hostMove_cases hmove
  · exact hd
  · exact next_inj (exec_busy _ hbusy ▸ hw) ▸ hd
  · exact { hd with cursor := hd.cursor.of_eq rfl rfl rfl rfl }
  · exact hd.takeDout ht
  · exact { hd with cursor := hd.cursor.of_eq rfl rfl rfl rfl }
  · exact absurd rfl hm
  · exact { hd with cursor := hd.cursor.of_eq rfl rfl rfl rfl }
  · refine hd.storeCell (Nat.not_lt.1 fun hlt => ?_) v
    exact (hostMayWrite_iff s a).1 ha ⟨.inr hd.lent, (inBuffer_iff s a).2 (hd.total_eq.symm ▸ hlt)⟩
  · exact absurd (.inr hd.lent) ((hostMayLend_iff s).1 hl)

/-- What holds of a DEC's loan at every moment of a schedule without RESET. -/
def DecFollowed (start : State) (total : Nat) (s : State) : Prop :=
  NoReset s.turns ∧ (DecLent start total s ∨ DecEnded start total s)

theorem DecLent.of_step (hl : DecLent start total s) (hstep : step s = .next s') (hn : NoReset s.turns) :
    DecLent start total s' ∨ DecEnded start total s' := by
  obtain ⟨given, rest, hd⟩ := hl
  obtain rfl | ⟨ts, -, he | ⟨m, hm, hmove⟩⟩ := step_cases hstep
  · exact .inl ⟨given, rest, hd⟩
  · exact (hd.setTurns ts).of_engineMove (engineStep_move he)
  · exact .inl ⟨given, rest, (hd.setTurns ts).of_hostMove hmove (hn.ne_reset hm)⟩

theorem DecEnded.of_step (he : DecEnded start total s) (hstep : step s = .next s') (hn : NoReset s.turns) :
    DecEnded start total s' := by
  obtain ⟨⟨m, hcells, hloans⟩, houtputs⟩ := he
  exact ⟨⟨m, hcells, hloans.trans (step_view_grows hstep hn).loans⟩, houtputs.trans (step_outputs_grow hstep hn)⟩

theorem step_keeps_decFollowed (hstep : step s = .next s') (hf : DecFollowed start total s) :
    DecFollowed start total s' := by
  obtain ⟨hn, hl | he⟩ := hf
  · exact ⟨hn.of_suffix (step_turns_suffix hstep), hl.of_step hstep hn⟩
  · exact ⟨hn.of_suffix (step_turns_suffix hstep), .inr (he.of_step hstep hn)⟩

end EverySchedule

/-- Settles O51: along every schedule without RESET the DEC has the buffer or its outcome is recorded, and the snapshot
named is that of this one loan. -/
theorem decodeIsIndependentOfTheSchedule : Obligations.DecodeIsIndependentOfTheSchedule := by
  intro s t s' h r n m hp _ hn hexec hrun hloans
  obtain rfl := next_inj (exec_dec_idle h r hp ▸ hexec)
  have hissue := decRunning_issue s s.turns h r
  obtain ⟨-, ⟨given, rest, hd⟩ | he⟩ := run_keeps step_keeps_decFollowed hrun ⟨hn, .inl ⟨_, _, hissue⟩⟩
  · exact absurd (hd.loans.symm.trans hloans) (List.cons_ne_self _ _).symm
  · obtain ⟨⟨m', hcells, hm⟩, later, hlater⟩ := he
    rw [hloans] at hm
    obtain ⟨rfl, -⟩ := List.cons.inj (hm.eq_of_length rfl)
    exact ⟨hcells, later, hlater.symm⟩

end Sys2Proof.Machine

namespace Sys2Proof.Machine

/-! ### The program of a DEC (R79) -/

/-- What a DEC leaves as it is besides the registers (R130). -/
structure DecKeeps (start s : State) : Prop where
  mem : s.mem = start.mem
  pin : s.pin = start.pin
  rsp : s.rsp = start.rsp
  responses : s.host.responses = start.host.responses

/-- What is left of the program of a DEC when `n` tokens and END are still to be popped. -/
def popTurns (n : Nat) (ts : List Turn) : List Turn := List.replicate (n + 1) (.line .popDout) ++ ts

theorem popTurns_succ (n : Nat) (ts : List Turn) : popTurns (n + 1) ts = .line .popDout :: popTurns n ts := rfl

/-- The DEC of a program begun in `start` has the buffer; a POPD is left for the token in DOUT, for every byte to come and
for END. -/
structure PopsLent (start : State) (total : Nat) (ts : List Turn) (given rest : List Byte) (s : State) : Prop
    extends DecRunning start total given rest s, DecKeeps start s where
  turns : s.turns = popTurns (s.dout.toList.length + rest.length) ts

/-- END is in DOUT, and its POPD is left. -/
structure AtLastPop (start : State) (total : Nat) (ts : List Turn) (s : State) : Prop extends DecKeeps start s where
  phase : s.phase = .idle
  dout : s.dout = some endToken
  outputs : s.host.outputs = ((decodedBytes start.mem total).map dataToken).reverse ++ outputsSoFar start
  turns : s.turns = .line .popDout :: ts

/-- A bound of the steps up to the POPD of END (R196). -/
def popStepsLeft (total : Nat) (rest : List Byte) (s : State) : Nat :=
  (total - position s) + 2 * rest.length + s.dout.toList.length +
    match s.phase with
    | .decEnd => 1
    | _ => 2

theorem popStepsLeft_le (total : Nat) (rest : List Byte) (s : State) :
    popStepsLeft total rest s ≤ (total - position s) + 2 * rest.length + s.dout.toList.length + 2 := by
  unfold popStepsLeft
  split <;> omega

/-- The program of a DEC, with `k` steps left at most up to the POPD of END. -/
def PopsGoOn (start : State) (total : Nat) (ts : List Turn) (k : Nat) (s : State) : Prop :=
  (∃ given rest, PopsLent start total ts given rest s ∧ popStepsLeft total rest s = k) ∨ AtLastPop start total ts s

/-- The next step brings the program nearer to the POPD of END. -/
def PopsAdvance (start : State) (total : Nat) (ts : List Turn) (k : Nat) (s : State) : Prop :=
  ∃ j s', j < k ∧ step s = .next s' ∧ PopsGoOn start total ts j s'

theorem step_line_popDout {s : State} {t : Token} {ts : List Turn} (ht : s.turns = .line .popDout :: ts)
    (hh : engineHolds s = true) (hd : s.dout = some t) : step s = .next ((s.setTurns ts).takeDout t) := by
  rw [step_line_move ht hh (by simp [moveEnabled, hd])]
  simp [hostMove, popDoutMove, hd]

section Program

variable {start s : State} {total : Nat} {ts : List Turn} {given rest : List Byte}

theorem PopsLent.goOn (hl : PopsLent start total ts given rest s) :
    PopsGoOn start total ts (popStepsLeft total rest s) s :=
  .inl ⟨given, rest, hl, rfl⟩

/-- While the engine can step, the program lets it (R79). -/
theorem PopsLent.step_engine (hl : PopsLent start total ts given rest s) (hh : engineHolds s = false) :
    step s = engineStep s :=
  step_line_engine hl.turns hh

/-- When DOUT is full and the engine holds, the program pops a token (R79). -/
theorem PopsLent.advance_pop {t : Token} (hl : PopsLent start total ts given rest s)
    (hp : s.phase = .decEmit ∨ s.phase = .decEnd) (hd : s.dout = some t) :
    PopsAdvance start total ts (popStepsLeft total rest s) s := by
  have hturns : s.turns = .line .popDout :: popTurns rest.length ts := by
    rw [hl.turns, hd, ← popTurns_succ, Nat.add_comm]
    rfl
  have hnext : PopsLent start total ts given rest ((s.setTurns (popTurns rest.length ts)).takeDout t) :=
    { (hl.toDecRunning.setTurns (popTurns rest.length ts)).takeDout hd, hl.toDecKeeps with turns := by simp }
  refine ⟨_, _, ?_, step_line_popDout hturns (engineHolds_of_dout_full hp (by simp [hd])) hd, hnext.goOn⟩
  obtain hp | hp := hp <;> simp [popStepsLeft, position, hp, hd]

/-- In DEC_BIT a cell is read, or the cells are used up; the cell it needs is among those R136 names. -/
theorem PopsLent.advance_bit (hl : PopsLent start total ts given rest s) (hp : s.phase = .decBit)
    (hcells : ∀ a, a < cellsRead start.mem total → (Memory.read start.mem a).isSome = true) :
    PopsAdvance start total ts (popStepsLeft total rest s) s := by
  have hengine := hl.step_engine (by simp [engineHolds, hp])
  cases hx : exhausted s with
  | true =>
    have hnext : PopsLent start total ts given rest (s.setPhase .decEnd) :=
      { hl.toDecRunning.cellsUsedUp hp hx, hl.toDecKeeps with turns := hl.turns }
    refine ⟨_, _, ?_, hengine.trans (engineStep_cellsUsedUp hp hx), hnext.goOn⟩
    simp [popStepsLeft, position, hp]
  | false =>
    obtain ⟨v, hv⟩ : ∃ v, Memory.read s.mem (cellAddress s).toNat = some v := by
      rw [cellAddress_toNat, ← Option.isSome_iff_exists, hl.mem]
      exact hcells _ (hl.position_lt_cellsRead hp hx)
    have hnext : PopsLent start total ts given rest
        ((((s.setCur (gathered s v)).advancePos).advanceMask).setPhase (phaseAfterGather s (gathered s v))) :=
      { hl.toDecRunning.gather_bit hp hx hv, hl.toDecKeeps with turns := hl.turns }
    refine ⟨_, _, (popStepsLeft_le total rest _).trans_lt ?_, hengine.trans (engineStep_gatherBit hp hx hv),
      hnext.goOn⟩
    have hadv : position ((((s.setCur (gathered s v)).advancePos).advanceMask).setPhase
        (phaseAfterGather s (gathered s v))) = position s + 1 := hl.cursor.position_advancePos hx
    have hlt : position s < total := hl.total_eq ▸ hl.cursor.position_lt hx
    simp [popStepsLeft, hadv, hp]
    omega

/-- In DEC_EMIT the token in DOUT is popped, or the byte is put. -/
theorem PopsLent.advance_emit (hl : PopsLent start total ts given rest s) (hp : s.phase = .decEmit) :
    PopsAdvance start total ts (popStepsLeft total rest s) s := by
  cases hd : s.dout with
  | some t => exact hl.advance_pop (.inl hp) hd
  | none =>
    obtain ⟨rest', rfl, hput⟩ := hl.toDecRunning.put_byte hp hd
    have hnext : PopsLent start total ts (given ++ [s.cur]) rest'
        (((s.putDout (dataToken s.cur)).setCur 0).setPhase .decBit) :=
      { hput, hl.toDecKeeps with
        turns := by simp [hl.turns, hd, Nat.add_comm] }
    refine ⟨_, _, ?_, (hl.step_engine (by simp [engineHolds, hp, hd])).trans (engineStep_emit hp hd), hnext.goOn⟩
    simp [popStepsLeft, position, hp, hd]
    omega

/-- In DEC_END the token in DOUT is popped, or END is put. -/
theorem PopsLent.advance_end (hl : PopsLent start total ts given rest s) (hp : s.phase = .decEnd) :
    PopsAdvance start total ts (popStepsLeft total rest s) s := by
  cases hd : s.dout with
  | some t => exact hl.advance_pop (.inr hp) hd
  | none =>
    have hend : AtLastPop start total ts (((s.endLoan).putDout endToken).setPhase .idle) :=
      { hl.toDecKeeps with
        phase := rfl
        dout := rfl
        outputs := (List.cons.inj (hl.put_end hp hd)).2
        turns := by simp [hl.turns, hd, hl.stop hp, popTurns] }
    refine ⟨0, _, ?_, (hl.step_engine (by simp [engineHolds, hp, hd])).trans (engineStep_putEnd hp hd), .inr hend⟩
    simp [popStepsLeft, hp]

/-- Every step of the program brings it nearer to the POPD of END. -/
theorem PopsGoOn.advance {k : Nat} (hg : PopsGoOn start total ts k s)
    (hcells : ∀ a, a < cellsRead start.mem total → (Memory.read start.mem a).isSome = true) :
    AtLastPop start total ts s ∨ PopsAdvance start total ts k s := by
  obtain ⟨given, rest, hl, rfl⟩ | hend := hg
  · obtain hp | hp | hp := (lentToDec_iff s).1 hl.lent
    · exact .inr (hl.advance_bit hp hcells)
    · exact .inr (hl.advance_emit hp)
    · exact .inr (hl.advance_end hp)
  · exact .inl hend

/-- The program of a DEC begins with its issue, and the POPDs are left (R74, R79). -/
theorem step_decodeProgram (h r : Word) (n : Nat) (ts : List Turn) (hp : s.phase = .idle) :
    step (s.setTurns (decodeProgram h r (n + 1) ++ ts)) =
      .next (((s.setTurns (popTurns n ts)).beginBitCommand .dec h r).setPhase .decBit) := by
  have hissue := step_line_issue (s := s.setTurns (decodeProgram h r (n + 1) ++ ts)) (ts := popTurns n ts) rfl hp
  rw [hissue, decodeWord_encode]
  exact exec_dec_idle h r hp

end Program

/-! ### The whole effect of a DEC (R136, R196) -/

/-- What the program of a DEC that puts the bytes `bytes` leaves, its last POPD done (R136). -/
structure DecodeResult (start : State) (bytes : List Byte) (ts : List Turn) (s : State) : Prop
    extends DecKeeps start s where
  phase : s.phase = .idle
  dout : s.dout = none
  turns : s.turns = ts
  outputs : s.host.outputs = endToken :: ((bytes.map dataToken).reverse ++ start.host.outputs)

section Effect

variable {start s : State} {total : Nat} {ts : List Turn} {h r : Word}

theorem AtLastPop.pop (he : AtLastPop start total ts s) (hd : start.dout = none) :
    ∃ s', step s = .next s' ∧ DecodeResult start (decodedBytes start.mem total) ts s' := by
  have hold : outputsSoFar start = start.host.outputs := by
    rw [outputsSoFar, hd]
    rfl
  refine ⟨_, step_line_popDout he.turns (engineHolds_of_idle he.phase) he.dout, ?_⟩
  exact { he.toDecKeeps with
    phase := he.phase
    dout := rfl
    turns := rfl
    outputs := by simp [he.outputs, hold] }

theorem decodeProgram_run {bytes : List Byte} (ts : List Turn) (hp : s.phase = .idle) (hd : s.dout = none)
    (hbytes : decodedBytes s.mem (h.toNat * r.toNat) = bytes)
    (hcells : ∀ a, a < cellsRead s.mem (h.toNat * r.toNat) → (Memory.read s.mem a).isSome = true) :
    ∃ n s', n ≤ h.toNat * r.toNat + 2 * bytes.length + 4 ∧
      run n (s.setTurns (decodeProgram h r (bytes.length + 1) ++ ts)) = .next s' ∧ DecodeResult s bytes ts s' := by
  have hrunning := decRunning_issue s (popTurns bytes.length ts) h r
  rw [hbytes] at hrunning
  have hlent : PopsLent s (h.toNat * r.toNat) ts [] bytes
      (((s.setTurns (popTurns bytes.length ts)).beginBitCommand .dec h r).setPhase .decBit) :=
    { hrunning with
      mem := rfl
      pin := rfl
      rsp := rfl
      responses := rfl
      turns := by simp [State.beginBitCommand, hd] }
  obtain ⟨n, u, hn, hrun, hu⟩ := run_of_decreasing (fun k a hg => hg.advance hcells) hlent.goOn
  obtain ⟨s', hpop, hres⟩ := hu.pop hd
  rw [hbytes] at hres
  refine ⟨n + 1 + 1, s', ?_, run_add (run_succ (step_decodeProgram h r _ ts hp) hrun) (run_succ hpop rfl), hres⟩
  have hstart := hn.trans (popStepsLeft_le _ _ _)
  simp [State.beginBitCommand, hd] at hstart
  omega

end Effect

/-- Settles O45: the program's run up to the POPD of END, and the pop. -/
theorem decodeHasTheWholeEffectOfTheRule : Obligations.DecodeHasTheWholeEffectOfTheRule := by
  intro s h r ts hp hd total bytes hcells
  obtain ⟨n, s', hn, hrun, hres⟩ := decodeProgram_run ts hp hd rfl hcells
  exact ⟨n, s', hn, hrun, hres.phase, hres.dout, hres.pin, hres.rsp, hres.turns, hres.mem, hres.outputs, hres.responses⟩

end Sys2Proof.Machine

namespace Sys2Proof.Machine

/-! ### The round trip (R141) -/

theorem logicalPayload_ne_zero (d : List Byte) : ∀ b ∈ logicalPayload d, b ≠ 0 := by
  induction d with
  | nil => exact List.forall_mem_nil _
  | cons b rest ih =>
    rw [logicalPayload]
    split
    case isTrue => exact List.forall_mem_nil _
    case isFalse hb => exact List.forall_mem_cons.2 ⟨hb, ih⟩

theorem logicalPayload_eq_self {d : List Byte} (h : ∀ b ∈ d, b ≠ 0) : logicalPayload d = d := by
  induction d with
  | nil => rfl
  | cons b rest ih =>
    obtain ⟨hb, hrest⟩ := List.forall_mem_cons.1 h
    rw [logicalPayload, if_neg hb, ih hrest]

/-- Groups that are the bytes of `l`, none of them 0, and then a 0 give `l` (R133). -/
theorem groupsFrom_of_groups {m : Memory} {l : List Byte} {count n : Nat} (hl : ∀ b ∈ l, b ≠ 0)
    (hcount : l.length < count)
    (hgroups : ∀ i b, (l ++ [0])[i]? = some b → cellGroup m (n + i) = b) : groupsFrom m count n = l := by
  induction l generalizing count n with
  | nil =>
    obtain ⟨count, rfl⟩ := Nat.exists_eq_add_one_of_ne_zero (Nat.ne_zero_of_lt hcount)
    have hzero : cellGroup m n = 0 := hgroups 0 0 rfl
    rw [groupsFrom, if_pos hzero]
  | cons b rest ih =>
    obtain ⟨count, rfl⟩ := Nat.exists_eq_add_one_of_ne_zero (Nat.ne_zero_of_lt hcount)
    obtain ⟨hb, hrest⟩ := List.forall_mem_cons.1 hl
    have hfirst : cellGroup m n = b := hgroups 0 b rfl
    have hlater : ∀ i c, (rest ++ [0])[i]? = some c → cellGroup m (n + 1 + i) = c := by
      intro i c hc
      rw [Nat.add_assoc, Nat.add_comm 1]
      exact hgroups (i + 1) c hc
    rw [groupsFrom, hfirst, if_neg hb, ih hrest (Nat.lt_of_succ_lt_succ hcount) hlater]

theorem flatMap_bits8_getElem? {l : List Byte} {i j : Nat} {b : Byte} (hb : l[i]? = some b) (hj : j < 8) :
    (l.flatMap bits8)[8 * i + j]? = (bits8 b)[j]? := by
  induction l generalizing i with
  | nil => cases hb
  | cons c rest ih =>
    rw [List.flatMap_cons]
    cases i with
    | zero =>
      obtain rfl : c = b := Option.some.inj hb
      have hlen : 8 * 0 + j < (bits8 c).length := by simpa [bits8] using hj
      exact (List.getElem?_append_left hlen).trans (by rw [Nat.mul_zero, Nat.zero_add])
    | succ i =>
      rw [List.getElem?_append_right (by simp [bits8]; omega), ← ih hb]
      congr 1
      simp [bits8]
      omega

/-- Cells that carry the bits of a list of bytes have those bytes as their groups (R12, R136). -/
theorem cellGroup_of_bits {m : Memory} {l : List Byte}
    (hm : ∀ a q, (l.flatMap bits8)[a]? = some q → cellLsb m a = q) {i : Nat} {b : Byte} (hb : l[i]? = some b) :
    cellGroup m i = b := by
  apply BitVec.eq_of_getLsbD_eq
  intro k hk
  rw [cellGroup_getLsbD m i hk]
  refine hm _ _ ?_
  rw [flatMap_bits8_getElem? hb (by omega), bits8_getElem? b (by omega)]
  congr 2
  omega

/-- The cells that bits are written into carry them (R104). -/
theorem EncodedOn.cellLsb_eq {before after : Memory} {q : List Bool}
    (hc : EncodedOn (fun _ => True) before after q) {a : Nat} {b : Bool} (hb : q[a]? = some b)
    (hv : (Memory.read before a).isSome = true) : cellLsb after a = b := by
  obtain ⟨v, hv⟩ := Option.isSome_iff_exists.1 hv
  rw [cellLsb, hc a trivial, hv, Option.map_some, Option.any_some, encodedCell, hb]
  exact perturb_lsb v b

/-- A buffer of `total` cells that carries the wire bits of a payload decodes to the payload. -/
theorem decodedBytes_of_bits {m : Memory} {total : Nat} (d : List Byte)
    (hroom : 8 * ((logicalPayload d).length + 1) ≤ total)
    (hm : ∀ a q, ((logicalPayload d ++ [0]).flatMap bits8)[a]? = some q → cellLsb m a = q) :
    decodedBytes m total = logicalPayload d := by
  refine groupsFrom_of_groups (logicalPayload_ne_zero d) (by omega) fun i b hb => ?_
  rw [Nat.zero_add]
  exact cellGroup_of_bits hm hb

/-- A program of an ENC whose wire bits fit leaves them in the cells (R110). -/
theorem EncodeResult.carries_wireBits {start s : State} {h r : Word} {d : List Byte} {e : Token} {ts : List Turn}
    (hres : EncodeResult start h r d e ts s) (he : tokenIsEnd e = true) (hcov : covers start.mem h r)
    (hroom : 8 * ((logicalPayload d).length + 1) ≤ h.toNat * r.toNat) :
    ∀ a q, ((logicalPayload d ++ [0]).flatMap bits8)[a]? = some q → cellLsb s.mem a = q := by
  intro a q hq
  have hwire : wireBits (payloadFrame d e) = (logicalPayload d ++ [0]).flatMap bits8 := by
    rw [wireBits, wireBytes_payloadFrame d he]
  have hlen : (wireBits (payloadFrame d e)).length = 8 * ((logicalPayload d).length + 1) := by
    rw [length_wireBits, length_wireBytes_payloadFrame he]
  have hcells := hres.cells
  rw [List.take_of_length_le (hlen.trans_le hroom), hwire] at hcells
  refine hcells.cellLsb_eq hq (hcov a ?_)
  obtain ⟨ha, -⟩ := List.getElem?_eq_some_iff.1 hq
  rw [← hwire, hlen] at ha
  exact ha.trans_le hroom

/-- Settles O46: the program of the ENC leaves the wire bits in the cells, and the program of the DEC finds their groups. -/
theorem decodeAfterEncodeGivesThePayload : Obligations.DecodeAfterEncodeGivesThePayload := by
  intro s h r h' r' d e ts hp hq hr hd he hcov hcov' hroom hroom'
  refine ⟨logicalPayload_eq_self, ?_⟩
  obtain ⟨n, u, -, hencode, hres⟩ := encodeProgram_run (decodeProgram h' r' ((logicalPayload d).length + 1) ++ ts)
    hp hq hr he fun a ha => hcov.visited d ha
  have hbytes : decodedBytes u.mem (h'.toNat * r'.toNat) = logicalPayload d :=
    decodedBytes_of_bits d hroom' (hres.carries_wireBits he hcov hroom)
  obtain ⟨k, s', -, hdecode, hfinal⟩ := decodeProgram_run ts hres.phase (hres.dout.trans hd) hbytes
    fun a ha => covers_of_encodedOn hres.cells hcov' a (ha.trans_le (cellsRead_le _ _))
  have hsame : u.setTurns (decodeProgram h' r' ((logicalPayload d).length + 1) ++ ts) = u := by
    rw [← hres.turns]
    rfl
  rw [hsame] at hdecode
  refine ⟨n + k, s', ?_, hfinal.phase, hfinal.turns, ?_, ?_⟩
  · rw [List.append_assoc]
    exact run_add hencode hdecode
  · rw [hfinal.responses, hres.responses, decide_eq_false (Nat.not_lt.2 hroom)]
  · rw [hfinal.outputs, hres.outputs]

end Sys2Proof.Machine

/-! PROOFS. The statement about 43_nop.md: a word with op = 0b00 is a NOP, and a NOP changes no state (R150). -/

namespace Sys2Proof.Machine

/-- The ignored fields of a NOP's word come back as they stand (R71, R73). -/
theorem decodeWord_of_opField_zero {w : CommandWord} (h : opField w = 0) :
    decodeWord w = .nop (hField w) (rField w) := by
  rw [decodeWord, h]
  rfl

/-- An accepted NOP updates nothing, and one presented outside IDLE is not accepted (R34, R150). -/
theorem exec_nop (h r : Word) (s : State) : exec (.nop h r) s = .next s := by
  by_cases hp : s.phase = .idle
  · exact exec_nop_idle h r hp
  · exact exec_busy _ hp

/-- Settles O7: a word with op = 0b00 decodes to a NOP of its own fields, and a NOP changes no state in any phase. -/
theorem nopChangesNoState : Obligations.NopChangesNoState := by
  refine ⟨by decide, fun w hop => ⟨hField w, rField w, ?_, exec_nop _ _⟩⟩
  rw [decode_toNat, decodeWord_of_opField_zero hop]

end Sys2Proof.Machine

/-! PROOFS. The statements about 60_exceptions.md: how OutOfSpace is taken and reported (R163), that nothing else sets RC
(R160), and what the buffer holds while an ENC has it (R164). -/

namespace Sys2Proof.Machine

/-! ### The buffer of an ENC under way (R164, R181) -/

section UnderWay

variable {start s : State} {h r : Word}

/-- The cells the cursor has passed carry the wire bits of the tokens taken, and the rest of the buffer is as it was lent. -/
theorem EncLent.encodedCells (hl : EncLent start h r s) :
    ∃ tokens, s.host.takes = tokens :: start.host.takes ∧
      EncodedCells start.mem s.mem (h.toNat * r.toNat)
        ((wireBits tokens.reverse).take (s.row.toNat * r.toNat + s.col.toNat)) := by
  obtain ⟨⟨taken, hrun⟩, -, rfl, -⟩ := hl
  exact ⟨taken.reverse, hrun.takes, taken.reverse_reverse.symm ▸ hrun.cells⟩

/-- The end of a loan is recorded. -/
theorem EncEnded.loans_ne (he : EncEnded start h r s) : s.host.loans ≠ start.host.loans := by
  obtain ⟨m, -, -, -, hloans, -⟩ := he
  exact fun hsame => Nat.not_succ_le_self _ (hsame ▸ hloans).length_le

end UnderWay

/-- Settles O49: along every schedule without RESET the ENC has the buffer or the end of its loan is recorded, and while it has
the buffer its cells carry the wire bits up to the cursor's position. -/
theorem bufferDuringEncodeHoldsAPrefix : Obligations.BufferDuringEncodeHoldsAPrefix := by
  intro s t s' h r n hp _ hn hexec hrun hloans
  obtain rfl := next_inj (exec_enc_idle h r hp ▸ hexec)
  obtain ⟨-, hl | he⟩ := run_keeps step_keeps_encFollowed hrun ⟨hn, .inl (encLent_issue s h r)⟩
  · exact hl.encodedCells
  · exact absurd hloans he.loans_ne

/-! ### The one error (R160, R163) -/

section OutOfSpace

variable {s s' : State}

/-- Where the cursor stands when no cell is left: there are no cells, or it has left the last column of the last row. -/
theorem Inv.cursor_of_exhausted (hi : Inv s) (hp : s.phase = .encBit) (hx : exhausted s = true) :
    s.r = 0 ∨ (s.row = s.h ∧ s.col = 0) := by
  have hop : s.op = .enc := hi.enc_op (.inr (.inl hp))
  obtain hrow | hr := (exhausted_iff s).1 hx
  · exact .inr ⟨hrow, hi.col_atEnd (.inl hop) hrow⟩
  · exact .inl hr

theorem engineHolds_of_rsp_full (hp : s.phase = .resp) (hr : s.rsp ≠ none) : engineHolds s = true := by
  simpa [engineHolds, hp, Option.isSome_iff_ne_none] using hr

/-- The phase after the response of an ENC (R44, R109). -/
theorem phaseAfterResponse_enc (hop : s.op = .enc) :
    phaseAfterResponse s = if s.srcEnd = true then .idle else .encDrain := by
  cases hsrc : s.srcEnd <;> simp [phaseAfterResponse, hop, hsrc]

/-- The response {1, 0} that reports the error (R77, R162). -/
theorem engineStep_reportOutOfSpace (hp : s.phase = .resp) (hr : s.rsp = none) (hop : s.op = .enc) (hrc : s.rc = true)
    (hres : s.res = 0) :
    engineStep s = .next { s with
      rsp := some 0x10000000000000000#65, phase := if s.srcEnd = true then .idle else .encDrain,
      host := (endEncLoan s).host } := by
  have hw : responseWord s.rc s.res = 0x10000000000000000#65 := by
    rw [hrc, hres]
    rfl
  rw [engineStep_resp hp hr, hw, phaseAfterResponse_enc hop]
  rfl

/-- The only move of the engine that sets RC is the taking of OutOfSpace. -/
theorem EngineMove.outOfSpace_of_rc (hm : EngineMove s s') (hclear : s.rc = false) (hset : s'.rc = true) :
    s.phase = .encBit ∧ exhausted s = true ∧ s' = s.raiseOutOfSpace := by
  cases hm with
  | outOfSpace hp hx => exact ⟨hp, hx, rfl⟩
  | _ => exact absurd (hclear.symm.trans hset) Bool.false_ne_true

/-- The issue of a command clears RC or leaves it (R74). -/
theorem exec_rc {i : Instr} (h : exec i s = .next s') : s'.rc = s.rc ∨ s'.rc = false := by
  obtain rfl | ⟨-, ⟨a, b, -, rfl⟩ | ⟨a, b, -, rfl⟩ | ⟨a, b, -, rfl⟩⟩ := exec_cases h
  · exact .inl rfl
  all_goals exact .inr rfl

/-- No move of the host sets RC: a command's issue and RESET clear it. -/
theorem hostMove_rc {m : HostMove} (h : hostMove m s = .next s') : s'.rc = s.rc ∨ s'.rc = false := by
  obtain rfl | ⟨w, -, hw⟩ | ⟨t, -, -, rfl⟩ | ⟨t, -, -, rfl⟩ | ⟨w, -, -, rfl⟩ | ⟨-, rfl⟩ | ⟨a, v, -, -, -, rfl⟩ |
    ⟨a, v, -, -, rfl⟩ | ⟨l, -, -, rfl⟩ := hostMove_cases h
  case inr.inl => exact exec_rc hw
  case inr.inr.inr.inr.inr.inl => exact .inr rfl
  all_goals exact .inl rfl

end OutOfSpace

/-- Settles O23: the invariants say where the exhausted cursor stands and that OP is ENC with RES 0, which fixes the
response. -/
theorem outOfSpaceIsTakenAndReported : Obligations.OutOfSpaceIsTakenAndReported := by
  intro s hi hp hx
  have hop : s.op = .enc := hi.enc_op (.inr (.inl hp))
  refine ⟨hi.cursor_of_exhausted hp hx, engineStep_outOfSpace hp hx, ?_⟩
  rintro u rfl
  refine ⟨fun hr => ?_, fun hr => ?_⟩
  · exact engineStep_of_engineHolds (engineHolds_of_rsp_full rfl hr)
  · exact ⟨_, engineStep_reportOutOfSpace rfl hr hop rfl (hi.enc_res hop)⟩

/-- Settles O24: of the engine's moves only the taking of OutOfSpace sets RC, and the host's moves clear it or leave it. -/
theorem onlyExhaustedEncBitSetsRC : Obligations.OnlyExhaustedEncBitSetsRC := by
  intro s s' hstep hclear hset
  obtain rfl | ⟨ts, -, he | ⟨m, -, hm⟩⟩ := step_cases hstep
  · exact absurd (hclear.symm.trans hset) Bool.false_ne_true
  · obtain ⟨hp, hx, rfl⟩ := (engineStep_move he).outOfSpace_of_rc hclear hset
    exact ⟨hp, hx, rfl, rfl, rfl⟩
  · obtain hrc | hrc := hostMove_rc hm
    · exact absurd (hclear.symm.trans (hrc.symm.trans hset)) Bool.false_ne_true
    · exact absurd (hrc.symm.trans hset) Bool.false_ne_true

end Sys2Proof.Machine

/-! PROOFS. The statements about 70_reset_and_hazards.md: what RESET gives (R180), the stray token (R190), how an engine that
holds waits (R183, R191), what the host sees of a step, and when an execution is over (R198). -/

namespace Sys2Proof.Machine

/-! ### RESET and the stray token (R180, R190) -/

/-- Settles O26: RESET gives the reset state but for the memory and what is the host's. -/
theorem resetGivesTheValuesOfTheTable : Obligations.ResetGivesTheValuesOfTheTable := by
  intro s ts ht
  refine ⟨resetMove (s.setTurns ts), step_host_turn ht, rfl, ?_⟩
  rintro u (rfl | rfl) <;> exact ⟨rfl, rfl, rfl, rfl, rfl, rfl, rfl, rfl, rfl, rfl, rfl, rfl, rfl, rfl⟩

/-- Settles O43: the issue opens an empty list of takes and leaves PIN, and ENC_FETCH takes what stands there. -/
theorem strayTokenJoinsTheNextFrame : Obligations.StrayTokenJoinsTheNextFrame :=
  fun _ _ h r hp hq => ⟨_, _, exec_enc_idle h r hp, hq, engineStep_encFetch rfl hq, rfl, rfl, rfl, rfl⟩

/-! ### Which agent moves in a step -/

section Agents

variable {s s' : State} {m : HostMove}

theorem moveEnabled_setTurns (m : HostMove) (ts : List Turn) : moveEnabled m (s.setTurns ts) = moveEnabled m s := by
  cases m <;> rfl

/-- A turn of the engine that holds is used up, and nothing else changes (R44, R191). -/
theorem step_engine_turn_of_engineHolds {ts : List Turn} (ht : s.turns = .engine :: ts) (hh : engineHolds s = true) :
    step s = .next (s.setTurns ts) := by
  simp only [step, takeTurn, ht]
  exact engineStep_of_engineHolds hh

/-- With no turn left the engine acts (R198). -/
theorem step_of_no_turn (ht : s.turns = []) : step s = engineStep s := by
  simp only [step, takeTurn, ht]

theorem step_host_turn_disabled {ts : List Turn} (ht : s.turns = .host m :: ts) (he : moveEnabled m s = false) :
    step s = .next (s.setTurns ts) := by
  rw [step_host_turn ht]
  exact hostMove_disabled (moveEnabled_setTurns m ts ▸ he)

/-- In a turn of the engine the host makes no move. -/
theorem moveMade_of_engineActs (h : engineActs s = true) : moveMade s = none := by
  unfold engineActs at h
  split at h
  case h_1 ht => simp [moveMade, ht]
  case h_2 ts ht => simp [moveMade, ht]
  case h_3 => cases h
  case h_4 m ts ht =>
    rw [Bool.not_eq_true'] at h
    simp [moveMade, ht, h]

theorem engineActs_of_moveMade (h : moveMade s = some m) : engineActs s = false := by
  cases ha : engineActs s with
  | false => rfl
  | true => exact absurd (h.symm.trans (moveMade_of_engineActs ha)) nofun

end Agents

/-! ### What the host sees of a step (R198) -/

section View

variable {s s' : State} {m : HostMove} {ts : List Turn}

/-- The host's view after the step from `s` (log entry 8): what the step makes observable is put before what was seen. -/
def viewAfterStep (s : State) : HostView where
  responses := (if moveMade s = some .popRsp then s.rsp.toList else []) ++ s.host.responses
  outputs := (if moveMade s = some .popDout then s.dout.toList else []) ++ s.host.outputs
  takes := if encAccepted s then [] :: s.host.takes
    else match tokenTaken s with
      | some t => recordTake t s.host.takes
      | none => s.host.takes
  loans := (if loanEndsHere s then [s.mem] else []) ++ s.host.loans
  reads := match moveMade s with
    | some (.readCell a) => (Memory.read s.mem a.toNat).toList ++ s.host.reads
    | _ => s.host.reads

/-- A turn of the engine shows the host the token it takes and the end of a loan. -/
theorem viewAfterStep_of_engineActs (ha : engineActs s = true) : viewAfterStep s = { s.host with
    takes := match tokenTaken s with
      | some t => recordTake t s.host.takes
      | none => s.host.takes
    loans := (if loanEndsHere s then [s.mem] else []) ++ s.host.loans } := by
  simp [viewAfterStep, encAccepted, moveMade_of_engineActs ha]

/-- A step in which neither agent moves shows the host nothing. -/
theorem viewAfterStep_of_neither (ha : engineActs s = false) (hm : moveMade s = none) : viewAfterStep s = s.host := by
  simp [viewAfterStep, encAccepted, tokenTaken, loanEndsHere, ha, hm]

theorem host_of_engineActs (ha : engineActs s = true) (h : engineStep (s.setTurns ts) = .next s') :
    s'.host = viewAfterStep s := by
  rw [viewAfterStep_of_engineActs ha, tokenTaken, loanEndsHere, ha]
  unfold engineStep at h
  rw [setTurns_phase] at h
  split at h
  case h_1 hp =>
    obtain rfl := next_inj h
    simp [hp]
  case h_2 hp =>
    obtain ⟨hq, rfl⟩ | ⟨t, hq, rfl⟩ := encFetch_cases h <;> rw [setTurns_pin] at hq <;> simp [hp, hq]
  case h_3 hp =>
    obtain ⟨-, rfl⟩ | ⟨-, v, -, rfl⟩ := encBit_cases h <;> simp [hp]
  case h_4 hp =>
    obtain ⟨⟨w, hr⟩, rfl⟩ | ⟨hr, rfl⟩ := respStep_cases h <;> rw [setTurns_rsp] at hr
    · simp [hp, hr]
    · by_cases hop : s.op = .enc <;> simp [hp, hr, hop]
  case h_5 hp =>
    obtain ⟨hq, rfl⟩ | ⟨t, hq, rfl⟩ := encDrain_cases h <;> rw [setTurns_pin] at hq <;> simp [hp, hq]
  case h_6 hp =>
    obtain ⟨-, rfl⟩ | ⟨-, v, -, rfl⟩ := decBit_cases h <;> simp [hp]
  case h_7 hp =>
    obtain ⟨-, rfl⟩ | ⟨-, rfl⟩ := decEmit_cases h <;> simp [hp]
  case h_8 hp =>
    obtain ⟨⟨t, hd⟩, rfl⟩ | ⟨hd, rfl⟩ := decEnd_cases h <;> rw [setTurns_dout] at hd <;> simp [hp, hd]

/-- The view after the issue of a command that is accepted: only an ENC opens a list of takes (R74). -/
theorem exec_host {i : Instr} (hp : s.phase = .idle) (h : exec i s = .next s') :
    s'.host = if opcodeOfInstr i = .enc then s.openTakes.host else s.host := by
  cases i with
  | nop a b => exact next_inj ((exec_nop_idle a b hp).symm.trans h) ▸ rfl
  | cap a b => exact next_inj ((exec_cap_idle a b hp).symm.trans h) ▸ rfl
  | enc a b => exact next_inj ((exec_enc_idle a b hp).symm.trans h) ▸ rfl
  | dec a b => exact next_inj ((exec_dec_idle a b hp).symm.trans h) ▸ rfl

theorem hostMove_push {t : Token} (hq : s.pin = none) : hostMove (.push t) s = .next (s.putPin t) := by
  simp [hostMove, pushMove, hq]

theorem hostMove_popDout {t : Token} (hd : s.dout = some t) : hostMove .popDout s = .next (s.takeDout t) := by
  simp [hostMove, popDoutMove, hd]

theorem hostMove_popRsp {w : Response} (hr : s.rsp = some w) : hostMove .popRsp s = .next (s.takeRsp w) := by
  simp [hostMove, popRspMove, hr]

/-- A read that answers gives the host the value of an attached cell (R45). -/
theorem readCell_answers {a : Wide} (h : hostMove (.readCell a) s = .next s') :
    ∃ v, Memory.read s.mem a.toNat = some v ∧ s' = s.recordRead v := by
  by_cases hr : hostMayRead s a = true
  · cases hv : Memory.read s.mem a.toNat with
    | some v => exact ⟨v, rfl, next_inj ((readCell_attached hr hv).symm.trans h)⟩
    | none => exact absurd ((readCell_unattached hr hv).symm.trans h) nofun
  · exact absurd ((readCell_refused hr).symm.trans h) nofun

theorem writeCell_host {a : Wide} {v : Byte} (h : hostMove (.writeCell a v) s = .next s') : s'.host = s.host := by
  by_cases hw : hostMayWrite s a = true
  · exact next_inj ((writeCell_allowed v hw).symm.trans h) ▸ rfl
  · exact absurd ((writeCell_refused v hw).symm.trans h) nofun

theorem lend_host {l : List Byte} (h : hostMove (.lend l) s = .next s') : s'.host = s.host := by
  by_cases hl : hostMayLend s = true
  · exact next_inj ((lend_allowed l hl).symm.trans h) ▸ rfl
  · exact absurd ((lend_refused l hl).symm.trans h) nofun

/-- The host's view after an enabled move `m`: the word or token popped, the list an ENC opens, the value read. -/
def viewAfterMove (m : HostMove) (s : State) : HostView :=
  match m with
  | .issue w => if opcodeOf (opField w) = .enc then s.openTakes.host else s.host
  | .popDout => { s.host with outputs := s.dout.toList ++ s.host.outputs }
  | .popRsp => { s.host with responses := s.rsp.toList ++ s.host.responses }
  | .readCell a => { s.host with reads := (Memory.read s.mem a.toNat).toList ++ s.host.reads }
  | .push _ | .reset | .writeCell _ _ | .lend _ => s.host

theorem hostMove_host (he : moveEnabled m s = true) (h : hostMove m s = .next s') : s'.host = viewAfterMove m s := by
  cases m with
  | issue w => rw [exec_host ((cmdReady_iff s).1 he) h, opcodeOfInstr_decodeWord, viewAfterMove]
  | push t => exact next_inj ((hostMove_push (Option.isNone_iff_eq_none.1 he)).symm.trans h) ▸ rfl
  | popDout =>
    obtain ⟨t, hd⟩ := Option.isSome_iff_exists.1 he
    rw [next_inj ((hostMove_popDout hd).symm.trans h), viewAfterMove, hd]
    rfl
  | popRsp =>
    obtain ⟨w, hr⟩ := Option.isSome_iff_exists.1 he
    rw [next_inj ((hostMove_popRsp hr).symm.trans h), viewAfterMove, hr]
    rfl
  | reset => exact next_inj h ▸ rfl
  | readCell a =>
    obtain ⟨v, hv, rfl⟩ := readCell_answers h
    rw [viewAfterMove, hv]
    rfl
  | writeCell a v => exact writeCell_host h
  | lend l => exact lend_host h

theorem viewAfterStep_of_moveMade (hm : moveMade s = some m) : viewAfterStep s = viewAfterMove m s := by
  have ha := engineActs_of_moveMade hm
  cases m with
  | issue w =>
    by_cases hop : opcodeOf (opField w) = .enc <;>
      simp [viewAfterStep, viewAfterMove, encAccepted, tokenTaken, loanEndsHere, hm, ha, hop]
  | _ => simp [viewAfterStep, viewAfterMove, encAccepted, tokenTaken, loanEndsHere, hm, ha]

theorem viewAfterMove_setTurns (m : HostMove) (ts : List Turn) :
    viewAfterMove m (s.setTurns ts) = viewAfterMove m s := by
  cases m <;> rfl

theorem host_of_moveMade (hm : moveMade s = some m) (h : step s = .next s') : s'.host = viewAfterStep s := by
  have he := (moveEnabled_setTurns m s.turns.tail).trans (moveEnabled_of_moveMade hm)
  rw [step_of_moveMade hm] at h
  rw [viewAfterStep_of_moveMade hm, hostMove_host he h, viewAfterMove_setTurns]

/-- The host's view after any step, whichever agent moves in it. -/
theorem step_host (h : step s = .next s') : s'.host = viewAfterStep s := by
  cases ha : engineActs s with
  | true =>
    obtain ⟨ts, -, hts⟩ := step_of_engineActs ha
    exact host_of_engineActs ha (hts ▸ h)
  | false =>
    cases hm : moveMade s with
    | some m => exact host_of_moveMade hm h
    | none =>
      obtain ⟨ts, -, hts⟩ := step_of_neither ha hm
      rw [viewAfterStep_of_neither ha hm, next_inj (hts.symm.trans h), setTurns_host]

end View

/-- Settles O27: every step leaves the view written out above, and a read that answers is one of an attached cell. -/
theorem hostViewRecordsWhatIsObserved : Obligations.HostViewRecordsWhatIsObserved := by
  intro s s' h
  rw [step_host h]
  refine ⟨rfl, rfl, rfl, rfl, fun a hm => ⟨by simp [viewAfterStep, hm], ?_⟩, fun hno => ?_⟩
  · obtain ⟨v, hv, -⟩ := readCell_answers ((step_of_moveMade hm).symm.trans h)
    exact ne_of_eq_of_ne hv nofun
  · unfold viewAfterStep
    dsimp only
    split
    case h_1 a hm => exact absurd hm (hno a)
    case h_2 => rfl

/-! ### Waiting and the end of an execution (R183, R191, R198) -/

/-- An engine that holds, with none but its own turns to come, uses up one of them (R191). -/
theorem step_waits {s : State} (hh : engineHolds s = true) (ht : ∀ t ∈ s.turns, t = .engine) :
    step s = .next (s.setTurns s.turns.tail) := by
  cases hts : s.turns with
  | nil =>
    rw [step_of_no_turn hts, engineStep_of_engineHolds hh, List.tail_nil, ← hts]
    rfl
  | cons t ts =>
    obtain rfl : t = .engine := ht t (hts ▸ List.mem_cons_self)
    exact step_engine_turn_of_engineHolds hts hh

/-- Settles O41, by induction on the number of steps: the state after the first waits on the turns left. -/
theorem holdingEngineWaitsForTheHost : Obligations.HoldingEngineWaitsForTheHost := by
  intro s hh ht n
  induction n generalizing s with
  | zero => rfl
  | succ n ih =>
    have hrun := ih (s.setTurns s.turns.tail) hh fun t hmem => ht t (List.mem_of_mem_tail hmem)
    rw [setTurns_turns, List.drop_tail] at hrun
    exact run_succ (step_waits hh ht) hrun

/-- The turns left after a step of an idle block in which the host makes no move: a line waits, any other turn is used up. -/
def turnsLeft : List Turn → List Turn
  | .line m :: ts => .line m :: ts
  | ts => ts.tail

section Idle

variable {s : State}

theorem bringsNoMove_setTurns (us ts : List Turn) : bringsNoMove (s.setTurns us) ts = bringsNoMove s ts := by
  induction ts with
  | nil => rfl
  | cons t ts ih => cases t <;> simp [bringsNoMove, moveEnabled_setTurns, ih]

/-- An idle block in which the host makes no move only uses up its turn. -/
theorem step_idle (hp : s.phase = .idle) (hm : moveMade s = none) : step s = .next (s.setTurns (turnsLeft s.turns)) := by
  have hh := engineHolds_of_idle hp
  cases ht : s.turns with
  | nil =>
    have hwaits := step_waits hh (ht ▸ nofun)
    rw [ht] at hwaits
    exact hwaits
  | cons t ts =>
    cases t with
    | engine => exact step_engine_turn_of_engineHolds ht hh
    | host m => exact step_host_turn_disabled ht (by simpa [moveMade, ht] using hm)
    | line m =>
      rw [step_line_waits ht hh (by simpa [moveMade, ht, hh] using hm), turnsLeft, ← ht]
      rfl

/-- No turn brings a move exactly when the next one does not and those after it do not. -/
theorem bringsNoMove_iff (hp : s.phase = .idle) :
    bringsNoMove s s.turns = true ↔ moveMade s = none ∧ bringsNoMove s (turnsLeft s.turns) = true := by
  have hh := engineHolds_of_idle hp
  cases ht : s.turns with
  | nil => simp [bringsNoMove, moveMade, turnsLeft, ht]
  | cons t ts => cases t <;> simp [bringsNoMove, moveMade, turnsLeft, ht, hh]

theorem Final.moveMade_eq_none (hf : Final s) : moveMade s = none := by
  obtain ⟨hp, -, -, -, hno⟩ := hf
  exact ((bringsNoMove_iff hp).1 hno).1

/-- A step from a final state uses up a turn at most, and the state stays final (R198). -/
theorem Final.step_stays (hf : Final s) :
    step s = .next (s.setTurns (turnsLeft s.turns)) ∧ Final (s.setTurns (turnsLeft s.turns)) := by
  obtain ⟨hp, hpin, hdout, hrsp, hno⟩ := hf
  obtain ⟨hm, hleft⟩ := (bringsNoMove_iff hp).1 hno
  exact ⟨step_idle hp hm, hp, hpin, hdout, hrsp, (bringsNoMove_setTurns _ _).trans hleft⟩

theorem Final.run_stays (hf : Final s) (n : Nat) : ∃ ts, run n s = .next (s.setTurns ts) ∧ Final (s.setTurns ts) := by
  induction n generalizing s with
  | zero => exact ⟨s.turns, rfl, hf⟩
  | succ n ih =>
    obtain ⟨hstep, hf'⟩ := hf.step_stays
    obtain ⟨ts, hrun, hts⟩ := ih hf'
    exact ⟨ts, run_succ hstep hrun, hts⟩

/-- An idle block along whose runs the host never moves has no turn that brings a move: each turn comes in time, but for those
behind a line that waits. -/
theorem bringsNoMove_of_runs (hp : s.phase = .idle) (hruns : ∀ n s', run n s = .next s' → moveMade s' = none) :
    bringsNoMove s s.turns = true := by
  generalize ht : s.turns = ts
  induction ts generalizing s with
  | nil => rfl
  | cons t ts ih =>
    have hm : moveMade s = none := hruns 0 s rfl
    have hstep := step_idle hp hm
    rw [ht] at hstep
    have hnext (hleft : turnsLeft (t :: ts) = ts) : bringsNoMove s (t :: ts) = true := by
      rw [hleft] at hstep
      have hrest : bringsNoMove (s.setTurns ts) ts = true :=
        ih hp (fun n s' hrun => hruns (n + 1) s' (run_succ hstep hrun)) rfl
      rw [bringsNoMove_setTurns] at hrest
      rw [← ht, bringsNoMove_iff hp, ht, hleft]
      exact ⟨hm, hrest⟩
    cases t with
    | line m => simpa [bringsNoMove, moveMade, ht, engineHolds_of_idle hp] using hm
    | _ => exact hnext rfl

end Idle

/-- Settles O52: a final state only uses up turns, and an idle block along whose runs the host never moves has no turn left
that brings a move. -/
theorem finalStateIsOver : Obligations.FinalStateIsOver := by
  refine fun s => ⟨⟨fun hf => ?_, fun ⟨hp, hpin, hdout, hrsp, hruns⟩ => ?_⟩, fun hf n => hf.run_stays n⟩
  · have ⟨hp, hpin, hdout, hrsp, _⟩ := hf
    refine ⟨hp, hpin, hdout, hrsp, fun n s' hrun => ?_⟩
    obtain ⟨ts, hts, hf'⟩ := hf.run_stays n
    exact next_inj (hts.symm.trans hrun) ▸ hf'.moveMade_eq_none
  · exact ⟨hp, hpin, hdout, hrsp, bringsNoMove_of_runs hp hruns⟩

end Sys2Proof.Machine
